-- ==== Sys2Proof/Word.lean ====
section
/-! DEFINITION. The word types of the block (00_scope.md rules R9, R10).
Bit 0 is the least significant bit; every register value and guest address is an unsigned 32-bit
word, every memory cell an 8-bit byte, every mode field a 5-bit pattern.  Offsets, sizes and
register indices are natural numbers, so no sum over them wraps (20_memory.md rule R38). -/

namespace Sys2Proof

/-- `Byte` of rule R10: 8-bit unsigned. -/
abbrev Byte := BitVec 8

/-- `Word32` of rule R10: 32-bit unsigned. -/
abbrev Word := BitVec 32

/-- `Addr` of rule R10: a 32-bit unsigned guest byte address. -/
abbrev Addr := BitVec 32

/-- `MODE5` of 30_encoding.md rule R63: a raw 5-bit mode pattern. -/
abbrev Mode5 := BitVec 5

end Sys2Proof
end

