-- ==== Sys2Proof/Config.lean ====
section
/-! DEFINITION. What an implementation fixes: the five named parameters of 00_scope.md rule R8,
each with the default the rule shows.  The machine is built from a `Config` by
`Machine.State.boot`; `Machine.State.reset` is the machine of the default parameters. -/

namespace Sys2Proof

/-- The parameters of rule R8.  `biosInit` is the image in `Buf[BIOS]` at construction, element 0 at
offset 0; offsets past the end of the list hold zero, so the empty list is "all zero when no image
is supplied" (log entry 4). -/
structure Config where
  /-- `PC_RESET`, the reset value of slot 30 (92_eei_decisions.md D7). -/
  pcReset : Word := 0
  /-- `BIOS_INIT` (D9). -/
  biosInit : List Byte := []
  /-- `CART_SIZE`, the size of the cartridge buffer in bytes (D10). -/
  cartSize : Nat := 0x8000
  /-- `IDX_W`, the width of the register-index port (D4). -/
  idxW : Nat := 8
  /-- `SIZE_MAX`, the largest access size a port can carry (D11). -/
  sizeMax : Nat := 2 ^ 32 - 1
  deriving DecidableEq, Repr

/-- The default of every parameter. -/
def Config.default : Config := {}

/-- The constraints rule R8 puts on the parameters, and the size of `BIOS_INIT`. -/
def Config.wf (c : Config) : Bool :=
  decide (c.biosInit.length ≤ 0x4000) && decide (1 ≤ c.cartSize) &&
    decide (c.cartSize ≤ 0x02000000) && decide (7 ≤ c.idxW)

end Sys2Proof
end

