-- ==== Sys2Proof/Syntax.lean ====
section
/-! DEFINITION. The fourteen operations of the block as syntax (00_scope.md rule R3, 30_encoding.md
rules R61 and R72): one constructor of `Instr` per row of the operation table. -/

namespace Sys2Proof

/-- The seven processor modes (10_state.md rule R13), in the order the source lists them.  There is
no eighth value: `undefined` is both a named mode and the default of `MODE_DECODE`. -/
inductive Mode where
  | user
  | fiq
  | irq
  | supervisor
  | abort
  | undefined
  | system
  deriving DecidableEq, Repr

/-- The two forms of the mode operand of the register operations (30_encoding.md rule R65). -/
inductive ModeOperand where
  /-- The typed form: a value of `Mode`, as the source's interface reads. -/
  | typed (m : Mode)
  /-- The raw form `#bits`: a 5-bit pattern as a hardware port carries it, recognized or not. -/
  | raw (bits : Mode5)
  deriving DecidableEq, Repr

/-- One constructor per operation of 30_encoding.md rule R72.  A register index and an access size
are natural numbers: values a port could not carry are presentable and handled (rules R10, R66). -/
inductive Instr where
  /-- `REG_READ idx, mode`, rules R82 and R84. -/
  | regRead (idx : Nat) (mode : ModeOperand)
  /-- `REG_WRITE idx, mode, value`, rules R83 and R85. -/
  | regWrite (idx : Nat) (mode : ModeOperand) (value : Word)
  /-- `MODE_DECODE bits`, rule R89. -/
  | modeDecode (bits : Mode5)
  /-- `PSR_N w`, rule R90. -/
  | psrN (w : Word)
  /-- `PSR_Z w`, rule R91. -/
  | psrZ (w : Word)
  /-- `PSR_C w`, rule R92. -/
  | psrC (w : Word)
  /-- `PSR_V w`, rule R93. -/
  | psrV (w : Word)
  /-- `PSR_I w`, rule R94. -/
  | psrI (w : Word)
  /-- `PSR_F w`, rule R95. -/
  | psrF (w : Word)
  /-- `PSR_T w`, rule R96. -/
  | psrT (w : Word)
  /-- `PSR_MODE w`, rule R97. -/
  | psrMode (w : Word)
  /-- `MEM_TRANSLATE addr, n`, rule R104. -/
  | memTranslate (addr : Addr) (n : Nat)
  /-- `MEM_READ addr, n`, rule R105. -/
  | memRead (addr : Addr) (n : Nat)
  /-- `MEM_WRITE addr, data`, rule R106; the size is the length of `data` (rule R68). -/
  | memWrite (addr : Addr) (data : List Byte)
  deriving DecidableEq, Repr

end Sys2Proof
end

