-- ==== Sys2Proof/Decode.lean ====
section
/-! DEFINITION. The encoded operands and the transaction record (30_encoding.md rules R61 to R72).

The block decodes no instruction word: an operation is named by a 4-bit ordinal `op` with its
operands passed beside it, and the spec's "encoding" of one operation is the tuple of numbers
`(op, operands…)` of rule R72.  `Record` is that tuple; `decode` reads it, total on every record and
rejecting by name; `encode` writes it. -/

namespace Sys2Proof

/-! ### Mode patterns (rules R63, R64) -/

/-- `ModeEncode`, the table of rule R63 read left to right. -/
def modeEncode : Mode → Mode5
  | .user => 0b10000
  | .fiq => 0b10001
  | .irq => 0b10010
  | .supervisor => 0b10011
  | .abort => 0b10111
  | .undefined => 0b11011
  | .system => 0b11111

/-- The seven modes, in the order of rule R13. -/
def allModes : List Mode := [.user, .fiq, .irq, .supervisor, .abort, .undefined, .system]

/-- `ModeOfBits?` of rule R64, the strict reading of a pattern: the mode it is the pattern of, and
`none` for the 25 unrecognized ones. -/
def modeOfBits? (bits : Mode5) : Option Mode := allModes.find? fun m => modeEncode m == bits

/-- The pattern a mode operand presents at the port (rule R65). -/
def ModeOperand.pattern : ModeOperand → Mode5
  | .typed m => modeEncode m
  | .raw bits => bits

/-- The mode operand a presented pattern stands for: the typed form where it is one of the seven
patterns, else the raw form (rule R65; log entry 8). -/
def ModeOperand.ofPattern (bits : Mode5) : ModeOperand :=
  match modeOfBits? bits with
  | some m => .typed m
  | none => .raw bits

/-- A mode operand in the form a record gives it back in. -/
def ModeOperand.canonical (mo : ModeOperand) : ModeOperand := .ofPattern mo.pattern

/-- An operation in the form a record gives it back in: the record of a typed mode and of the same
mode's raw pattern are one tuple (rule R72). -/
def Instr.canonical : Instr → Instr
  | .regRead idx mode => .regRead idx mode.canonical
  | .regWrite idx mode value => .regWrite idx mode.canonical value
  | .modeDecode bits => .modeDecode bits
  | .psrN w => .psrN w
  | .psrZ w => .psrZ w
  | .psrC w => .psrC w
  | .psrV w => .psrV w
  | .psrI w => .psrI w
  | .psrF w => .psrF w
  | .psrT w => .psrT w
  | .psrMode w => .psrMode w
  | .memTranslate addr n => .memTranslate addr n
  | .memRead addr n => .memRead addr n
  | .memWrite addr data => .memWrite addr data

/-! ### Records (rule R72) -/

/-- A transaction record: the 4-bit ordinal of rule R71 and the operands, each a number. -/
structure Record where
  op : BitVec 4
  args : List Nat
  deriving DecidableEq, Repr

/-- Why a record names no operation. -/
inductive DecodeError where
  /-- The ordinal is 14 or 15 (rule R71). -/
  | unassignedOrdinal (op : BitVec 4)
  /-- The record has not the operands rule R72 lists for its ordinal. -/
  | wrongOperands (op : BitVec 4)
  /-- A number is too large for the 32-bit word or the byte it stands for (rule R10). -/
  | operandTooWide (op : BitVec 4)
  deriving DecidableEq, Repr

/-- A number as a 32-bit operand (`W32`, `PSRW`, `GADDR`). -/
def wordOperand (op : BitVec 4) (x : Nat) : Except DecodeError Word :=
  if x < 2 ^ 32 then .ok (BitVec.ofNat 32 x) else .error (.operandTooWide op)

/-- Numbers as a byte sequence (`BYTES`), element 0 first. -/
def bytesOperand (op : BitVec 4) : List Nat → Except DecodeError (List Byte)
  | [] => .ok []
  | x :: xs =>
    if x < 2 ^ 8 then
      match bytesOperand op xs with
      | .ok bs => .ok (BitVec.ofNat 8 x :: bs)
      | .error e => .error e
    else .error (.operandTooWide op)

/-- A number as a mode pattern: where an interface presents a field wider than 5 bits, only bits 4–0
are used (41_mode_psr_ops.md rule R89 (d), 92_eei_decisions.md D5). -/
def patternOperand (x : Nat) : Mode5 := BitVec.ofNat 5 x

/-- An operation with one status word, built from a record's operands. -/
def decodePsr (op : BitVec 4) (mk : Word → Instr) : List Nat → Except DecodeError Instr
  | [w] => (wordOperand op w).map mk
  | _ => .error (.wrongOperands op)

/-- An operation with a guest address and a size, built from a record's operands. -/
def decodeSpan (op : BitVec 4) (mk : Addr → Nat → Instr) : List Nat → Except DecodeError Instr
  | [addr, n] => (wordOperand op addr).map fun a => mk a n
  | _ => .error (.wrongOperands op)

/-- `(0, idx, mode5)`. -/
def decodeRegRead : List Nat → Except DecodeError Instr
  | [idx, mode5] => .ok (.regRead idx (.ofPattern (patternOperand mode5)))
  | _ => .error (.wrongOperands 0)

/-- `(1, idx, mode5, value)`. -/
def decodeRegWrite : List Nat → Except DecodeError Instr
  | [idx, mode5, value] =>
    (wordOperand 1 value).map fun v => .regWrite idx (.ofPattern (patternOperand mode5)) v
  | _ => .error (.wrongOperands 1)

/-- `(2, bits)`. -/
def decodeModeDecode : List Nat → Except DecodeError Instr
  | [bits] => .ok (.modeDecode (patternOperand bits))
  | _ => .error (.wrongOperands 2)

/-- `(13, addr, [b0, b1, …])`. -/
def decodeMemWrite : List Nat → Except DecodeError Instr
  | addr :: data =>
    match wordOperand 13 addr, bytesOperand 13 data with
    | .ok a, .ok bs => .ok (.memWrite a bs)
    | .error e, _ => .error e
    | _, .error e => .error e
  | [] => .error (.wrongOperands 13)

/-- The operation a record names, by the table of rule R72; ordinals 14 and 15 are refused. -/
def decode (r : Record) : Except DecodeError Instr :=
  match r.op.toNat with
  | 0 => decodeRegRead r.args
  | 1 => decodeRegWrite r.args
  | 2 => decodeModeDecode r.args
  | 3 => decodePsr 3 .psrN r.args
  | 4 => decodePsr 4 .psrZ r.args
  | 5 => decodePsr 5 .psrC r.args
  | 6 => decodePsr 6 .psrV r.args
  | 7 => decodePsr 7 .psrI r.args
  | 8 => decodePsr 8 .psrF r.args
  | 9 => decodePsr 9 .psrT r.args
  | 10 => decodePsr 10 .psrMode r.args
  | 11 => decodeSpan 11 .memTranslate r.args
  | 12 => decodeSpan 12 .memRead r.args
  | 13 => decodeMemWrite r.args
  | _ => .error (.unassignedOrdinal r.op)

/-- The record of an operation, by the table of rule R72: `mode5` is the presented pattern. -/
def encode : Instr → Record
  | .regRead idx mode => ⟨0, [idx, mode.pattern.toNat]⟩
  | .regWrite idx mode value => ⟨1, [idx, mode.pattern.toNat, value.toNat]⟩
  | .modeDecode bits => ⟨2, [bits.toNat]⟩
  | .psrN w => ⟨3, [w.toNat]⟩
  | .psrZ w => ⟨4, [w.toNat]⟩
  | .psrC w => ⟨5, [w.toNat]⟩
  | .psrV w => ⟨6, [w.toNat]⟩
  | .psrI w => ⟨7, [w.toNat]⟩
  | .psrF w => ⟨8, [w.toNat]⟩
  | .psrT w => ⟨9, [w.toNat]⟩
  | .psrMode w => ⟨10, [w.toNat]⟩
  | .memTranslate addr n => ⟨11, [addr.toNat, n]⟩
  | .memRead addr n => ⟨12, [addr.toNat, n]⟩
  | .memWrite addr data => ⟨13, addr.toNat :: data.map BitVec.toNat⟩

/-- How many operand numbers rule R72 lists for an ordinal, a byte sequence counting as none. -/
def operandCount (op : BitVec 4) : Nat :=
  match op.toNat with
  | 0 => 2
  | 1 => 3
  | 2 => 1
  | 11 => 2
  | 12 => 2
  | 14 => 0
  | 15 => 0
  | _ => 1

/-- Every mode-pattern operand of the record fits in 5 bits, so that none of its bits is dropped. -/
def Record.patternsFit (r : Record) : Bool :=
  match r.op.toNat, r.args with
  | 0, [_, mode5] => decide (mode5 < 32)
  | 1, [_, mode5, _] => decide (mode5 < 32)
  | 2, [bits] => decide (bits < 32)
  | _, _ => true

/-! ### The operation table's words -/

/-- The record whose ordinal is bits 3–0 of a table word and whose operands are zero.  The table gives
a row four bits, padded to a whole byte; the pad is no part of the record (log entry 9). -/
def tableRecord (nbits w : Nat) : Record :=
  let op := BitVec.ofNat 4 (w % 2 ^ nbits)
  ⟨op, List.replicate (operandCount op) 0⟩

/-- The operation the decoder reads from a word of spec/opcode_table.json. -/
def decodeTableWord (nbits w : Nat) : Option Instr :=
  match decode (tableRecord nbits w) with
  | .ok i => some i
  | .error _ => none

end Sys2Proof
end

