-- ==== Sys2Proof/Machine/Buffer.lean ====
section
/-! DEFINITION. The nine backing buffers as plain data (10_state.md rules R28 and R31).

A buffer is a list of (local offset, byte) cells in one canonical form: offsets strictly rising, and
no cell that holds what an unlisted offset reads as.  A buffer is zero at construction (rule R31),
so an unlisted offset reads as zero. -/

namespace Sys2Proof.Machine

/-- `BufId` of rule R28, in the order of its ordinals. -/
inductive BufId where
  | bios
  | ewram
  | iwram
  | io
  | pal
  | vram
  | oam
  | cart
  | sram
  deriving DecidableEq, Repr

/-- The ordinals of rule R28 (92_eei_decisions.md D18). -/
def BufId.ordinal : BufId → Fin 9
  | .bios => 0
  | .ewram => 1
  | .iwram => 2
  | .io => 3
  | .pal => 4
  | .vram => 5
  | .oam => 6
  | .cart => 7
  | .sram => 8

/-- The nine buffers in the order of their ordinals. -/
def allBufs : List BufId := [.bios, .ewram, .iwram, .io, .pal, .vram, .oam, .cart, .sram]

/-- The contents of one backing buffer. -/
abbrev Buffer := List Host.Cell

/-- The contents of the nine buffers, by ordinal. -/
abbrev Memory := Vector Buffer 9

/-- What an offset with no cell reads as: the construction value (rule R31). -/
def unlistedByte : Byte := 0

/-- The byte at a local offset, `Buf[b][o]` of rule R11. -/
def Buffer.read : Buffer → Nat → Byte
  | [], _ => unlistedByte
  | (k, v) :: t, o => if k = o then v else Buffer.read t o

/-- `Buf[b][o] <- v`, keeping the canonical form: storing the unlisted value removes the cell. -/
def Buffer.write : Buffer → Nat → Byte → Buffer
  | [], o, v => if v = unlistedByte then [] else [(o, v)]
  | (k, x) :: t, o, v =>
    if o < k then (if v = unlistedByte then (k, x) :: t else (o, v) :: (k, x) :: t)
    else if o = k then (if v = unlistedByte then t else (o, v) :: t)
    else (k, x) :: Buffer.write t o v

/-- The `n` bytes from an offset, element `j` from offset `o + j` (20_memory.md rule R41). -/
def Buffer.readBytes (b : Buffer) (o n : Nat) : List Byte :=
  (List.range n).map fun j => Buffer.read b (o + j)

/-- Bytes stored from an offset on, element `j` to offset `o + j` (rule R41). -/
def Buffer.writeBytes : Buffer → Nat → List Byte → Buffer
  | b, _, [] => b
  | b, o, v :: vs => Buffer.writeBytes (Buffer.write b o v) (o + 1) vs

/-- A buffer that holds an image from offset 0 on and zero after it. -/
def Buffer.ofBytes (image : List Byte) : Buffer := Buffer.writeBytes [] 0 image

/-- The canonical form, with every offset at least `lo`. -/
def Buffer.wfFrom : Nat → Buffer → Bool
  | _, [] => true
  | lo, (k, v) :: t => decide (lo ≤ k) && decide (v ≠ unlistedByte) && Buffer.wfFrom (k + 1) t

/-- Every cell lies below an offset. -/
def Buffer.below (size : Nat) (b : Buffer) : Bool := b.all fun c => decide (c.1 < size)

/-- One buffer of the nine. -/
def Memory.buf (m : Memory) (b : BufId) : Buffer := m[b.ordinal]

/-- The memory with one buffer's contents replaced. -/
def Memory.setBuf (m : Memory) (b : BufId) (c : Buffer) : Memory := m.set b.ordinal.val c

/-- Every buffer is in the canonical form. -/
def Memory.wf (m : Memory) : Bool := allBufs.all fun b => Buffer.wfFrom 0 (Memory.buf m b)

/-- Nine zero buffers. -/
def Memory.zero : Memory := Vector.replicate 9 []

end Sys2Proof.Machine
end

