-- ==== Sys2Proof/Machine/State.lean ====
section
/-! DEFINITION. The state of the machine, as plain data, and the state after reset.

The block's own state is exactly the 38 register words and the nine buffers (10_state.md rules R20,
R25 and R28); `cartSize` is its one size parameter (00_scope.md rule R8 (c)).  `inbox` and `out` are
the model's own: what the one agent is about to issue, and what the last operation answered, which
is how an operation's result, given at the interface, is visible in a state (log entries 1 and 2). -/

namespace Sys2Proof.Machine

/-- The 38 storage words `R[0]` to `R[37]` of rule R20. -/
abbrev RegFile := Vector Word 38

/-- What an operation gives at the interface (30_encoding.md rules R67, R68 and R72). -/
inductive Result where
  /-- `Option Word32` of `REG_READ`: the word, or absence. -/
  | word (v : Option Word)
  /-- `REG_WRITE` completed: it has no status output (60_exceptions.md rule R114). -/
  | written
  /-- The `Mode` of `MODE_DECODE` and `PSR_MODE`. -/
  | mode (m : Mode)
  /-- The `Bool` of a flag query. -/
  | flag (f : Bool)
  /-- `Option (BufId × Nat)` of `MEM_TRANSLATE`: buffer and local start, or no mapping. -/
  | mapping (r : Option (BufId × Nat))
  /-- `Option Bytes(n)` of `MEM_READ`: the bytes, lowest address first, or no data. -/
  | bytes (d : Option (List Byte))
  /-- The `Bool` of `MEM_WRITE`: success or failure. -/
  | stored (ok : Bool)
  deriving DecidableEq, Repr

/-- The whole machine. -/
structure State where
  /-- The register storage (rule R20). -/
  regs : RegFile
  /-- The backing buffers (rule R28). -/
  mem : Memory
  /-- `CART_SIZE`, fixed for the machine: no operation changes it (rule R8 (c)). -/
  cartSize : Nat
  /-- The records the agent is still to issue, the next one first (the model's own). -/
  inbox : List Record
  /-- The result of the latest operation, `none` before the first (the model's own). -/
  out : Option Result
  deriving DecidableEq, Repr

/-- The reasons to stop with a fault: there is none.  The block never raises (60_exceptions.md rule
R111: none of its outcomes is a fault, stuck or refused step), so the type has no constructor. -/
inductive Fault where
  deriving DecidableEq, Repr

/-- The reasons a step is refused. -/
inductive Refusal where
  /-- An arm of `exec` with no meaning yet (no arm has it).  Safe. -/
  | notModelled (mnemonic : String)
  /-- Raised by `step` on a record that names no operation: an unassigned ordinal (30_encoding.md rule
  R71: a model refuses it), or numbers that are not the operands of rule R72.  Safe. -/
  | namesNoOperation (why : DecodeError)
  deriving DecidableEq, Repr

/-- Register state at reset (rule R30): zero in every slot but slot 30, which holds `PC_RESET`. -/
def bootRegs (c : Config) : RegFile := (Vector.replicate 38 0).set 30 c.pcReset

/-- Buffers at construction (rule R31): zero but for BIOS, which holds `BIOS_INIT`. -/
def bootMem (c : Config) : Memory := Memory.setBuf Memory.zero .bios (Buffer.ofBytes c.biosInit)

/-- The machine of a configuration right after reset, which is construction (70_reset_and_hazards.md
rule R129). -/
def State.boot (c : Config) : State where
  regs := bootRegs c
  mem := bootMem c
  cartSize := c.cartSize
  inbox := []
  out := none

/-- The machine of the default parameters right after reset. -/
def State.reset : State := State.boot Config.default

end Sys2Proof.Machine
end

