-- ==== Sys2Proof/Machine/Operands.lean ====
section
/-! DEFINITION. What the operands stand for: modes and banks, the slot map, the region table and the
translation of a guest span (10_state.md section 3; 20_memory.md section 1; 41_mode_psr_ops.md rule
R89; 42_address_decoder_ops.md rule R104). -/

namespace Sys2Proof.Machine

/-! ### Modes -/

/-- `MODE_DECODE` of rule R89: total, every pattern but the seven giving `Undefined`. -/
def modeDecode (bits : Mode5) : Mode :=
  if bits = 0b10000 then .user
  else if bits = 0b10001 then .fiq
  else if bits = 0b10010 then .irq
  else if bits = 0b10011 then .supervisor
  else if bits = 0b10111 then .abort
  else if bits = 0b11011 then .undefined
  else if bits = 0b11111 then .system
  else .undefined

/-- The mode a mode operand names: a typed one always its own, a raw pattern by the strict reading
(30_encoding.md rules R64 and R65). -/
def modeOperandMode? : ModeOperand → Option Mode
  | .typed m => some m
  | .raw bits => modeOfBits? bits

/-- `Bank` of rule R14 (numbering: 92_eei_decisions.md D2). -/
def bank : Mode → Nat
  | .user => 0
  | .system => 0
  | .fiq => 1
  | .irq => 2
  | .supervisor => 3
  | .abort => 4
  | .undefined => 5

/-! ### Register slots -/

/-- `Slot` of rule R21 as a number, written as the rule writes it. -/
def slotNumber (i : Nat) (m : Mode) : Nat :=
  if i ≤ 7 then i
  else if i ≤ 12 then (if m = .fiq then 13 + (i - 8) else i)
  else if i = 13 then 18 + bank m
  else if i = 14 then 24 + bank m
  else if i = 15 then 30
  else if i = 16 then 31
  else 32 + bank m

/-- The slot map is into the 38 slots. -/
theorem slotNumber_lt (i : Nat) (m : Mode) : slotNumber i m < 38 := by
  unfold slotNumber
  cases m <;> simp only [bank] <;> split_ifs <;> omega

/-- `Slot` of rule R21, for a logical index 0 to 17. -/
def slot (i : Fin 18) (m : Mode) : Fin 38 := ⟨slotNumber i.val m, slotNumber_lt i.val m⟩

/-- `Resolve` of 40_register_bank_ops.md rule R80: the one place the banking rule lives, shared by the
read and the write path. -/
def resolve (idx : Nat) (m : Mode) : Option (Fin 38) :=
  if h : idx < 18 then some (slot ⟨idx, h⟩ m) else none

/-! ### Regions -/

/-- One entry of the region table: its first guest address, its declared length and its buffer. -/
structure Region where
  lo : Nat
  declared : Nat
  buf : BufId
  deriving DecidableEq, Repr

/-- The eleven entries of 20_memory.md rule R34, in the order the scan takes them. -/
def regionTable : List Region :=
  [ ⟨0x00000000, 0x4000, .bios⟩,
    ⟨0x02000000, 0x40000, .ewram⟩,
    ⟨0x03000000, 0x8000, .iwram⟩,
    ⟨0x04000000, 0x3FF, .io⟩,
    ⟨0x05000000, 0x400, .pal⟩,
    ⟨0x06000000, 0x18000, .vram⟩,
    ⟨0x07000000, 0x400, .oam⟩,
    ⟨0x08000000, 0x02000000, .cart⟩,
    ⟨0x0A000000, 0x02000000, .cart⟩,
    ⟨0x0C000000, 0x02000000, .cart⟩,
    ⟨0x0E000000, 0x10000, .sram⟩ ]

/-- The sizes of the buffers in bytes (10_state.md rule R28). -/
def bufSize (cartSize : Nat) : BufId → Nat
  | .bios => 0x4000
  | .ewram => 0x40000
  | .iwram => 0x8000
  | .io => 0x3FF
  | .pal => 0x400
  | .vram => 0x18000
  | .oam => 0x400
  | .cart => cartSize
  | .sram => 0x10000

/-- `EffLen` of rule R34: the declared length or the buffer's size, whichever is less. -/
def Region.effLen (cartSize : Nat) (r : Region) : Nat := min r.declared (bufSize cartSize r.buf)

/-- The start address matches the entry: it lies in the entry's effective range. -/
def Region.covers (cartSize : Nat) (r : Region) (addr : Nat) : Bool :=
  decide (r.lo ≤ addr) && decide (addr - r.lo < r.effLen cartSize)

/-- The span ends inside the entry, in natural-number arithmetic (rules R36 and R38). -/
def Region.contains (cartSize : Nat) (r : Region) (addr n : Nat) : Bool :=
  decide ((addr - r.lo) + n ≤ r.effLen cartSize)

/-- The scan of rule R104: the first entry the start address matches decides. -/
def scanRegions (cartSize addr n : Nat) : List Region → Option (BufId × Nat)
  | [] => none
  | r :: rs =>
    if r.covers cartSize addr then
      (if r.contains cartSize addr n then some (r.buf, addr - r.lo) else none)
    else scanRegions cartSize addr n rs

/-- `Translate` of rule R104. -/
def memTranslate (cartSize : Nat) (addr : Addr) (n : Nat) : Option (BufId × Nat) :=
  scanRegions cartSize addr.toNat n regionTable

/-- `Valid` of rule R36, as the rule writes it: some entry matches the start address and holds the
span.  Not used by the operations; stated equal to `memTranslate` succeeding. -/
def valid (cartSize : Nat) (addr : Addr) (n : Nat) : Bool :=
  regionTable.any fun r => r.covers cartSize addr.toNat && r.contains cartSize addr.toNat n

/-- Step 1 of the two-step decode of 30_encoding.md rule R69: the entry selected by `addr[31:24]`. -/
def coarseSelect (addr : Addr) : Option Region :=
  match (addr.extractLsb' 24 8).toNat with
  | 0x00 => regionTable[0]?
  | 0x02 => regionTable[1]?
  | 0x03 => regionTable[2]?
  | 0x04 => regionTable[3]?
  | 0x05 => regionTable[4]?
  | 0x06 => regionTable[5]?
  | 0x07 => regionTable[6]?
  | 0x08 => regionTable[7]?
  | 0x09 => regionTable[7]?
  | 0x0A => regionTable[8]?
  | 0x0B => regionTable[8]?
  | 0x0C => regionTable[9]?
  | 0x0D => regionTable[9]?
  | 0x0E => regionTable[10]?
  | _ => none

/-- The offset step 2 of rule R69 takes from the address: `addr[24:0]` for the cartridge windows,
`addr[23:0]` for every other entry. -/
def coarseOffset (r : Region) (addr : Addr) : Nat :=
  match r.buf with
  | .cart => (addr.extractLsb' 0 25).toNat
  | _ => (addr.extractLsb' 0 24).toNat

/-- The two-step decode of rule R69. -/
def coarseTranslate (cartSize : Nat) (addr : Addr) (n : Nat) : Option (BufId × Nat) :=
  match coarseSelect addr with
  | none => none
  | some r =>
    let off := coarseOffset r addr
    if off < r.effLen cartSize ∧ off + n ≤ r.effLen cartSize then some (r.buf, off) else none

end Sys2Proof.Machine
end

