-- ==== Sys2Proof/Machine/Flags.lean ====
section
/-! DEFINITION. The fields of a status word (10_state.md rule R15, 30_encoding.md rule R62): pure bit
tests of a 32-bit value, which is never stored in parts (rules R16 and R99). -/

namespace Sys2Proof.Machine

/-- `PSR_N`, bit 31 (41_mode_psr_ops.md rule R90). -/
def psrN (w : Word) : Bool := w.getLsbD 31

/-- `PSR_Z`, bit 30 (rule R91). -/
def psrZ (w : Word) : Bool := w.getLsbD 30

/-- `PSR_C`, bit 29 (rule R92). -/
def psrC (w : Word) : Bool := w.getLsbD 29

/-- `PSR_V`, bit 28 (rule R93). -/
def psrV (w : Word) : Bool := w.getLsbD 28

/-- `PSR_I`, bit 7: set means IRQ is disabled (rule R94). -/
def psrI (w : Word) : Bool := w.getLsbD 7

/-- `PSR_F`, bit 6: set means FIQ is disabled (rule R95). -/
def psrF (w : Word) : Bool := w.getLsbD 6

/-- `PSR_T`, bit 5: set means the Thumb execution state is selected (rule R96). -/
def psrT (w : Word) : Bool := w.getLsbD 5

/-- The raw mode field `w[4:0]` (30_encoding.md rule R70 (a)). -/
def psrField (w : Word) : Mode5 := w.extractLsb' 0 5

/-- `PSR_MODE` (rule R97). -/
def psrMode (w : Word) : Mode := modeDecode (psrField w)

/-- The twenty bits 27–8, which no query reads (30_encoding.md rule R74). -/
def psrUninterpreted (w : Word) : BitVec 20 := w.extractLsb' 8 20

end Sys2Proof.Machine
end

