-- ==== Sys2Proof/Machine/Ops.lean ====
section
/-! DEFINITION. The named operations over registers and memory that the meanings share.

Register access goes through `resolve` and memory access through `memTranslate`, each for both
directions (40_register_bank_ops.md rule R80, 42_address_decoder_ops.md rule R102).  There is no
exception entry or return here: the block performs neither (60_exceptions.md rules R118, R119). -/

namespace Sys2Proof.Machine

/-! ### Registers -/

/-- `R[s]`. -/
def readSlot (regs : RegFile) (s : Fin 38) : Word := regs[s]

/-- `R[s] <- v`. -/
def writeSlot (regs : RegFile) (s : Fin 38) (v : Word) : RegFile := regs.set s.val v

/-- `REG_READ`, typed form (rule R82). -/
def regRead (regs : RegFile) (idx : Nat) (m : Mode) : Option Word :=
  match resolve idx m with
  | none => none
  | some s => some (readSlot regs s)

/-- `REG_WRITE`, typed form (rule R83): a total function on register states (60_exceptions.md rule
R114). -/
def regWrite (regs : RegFile) (idx : Nat) (m : Mode) (v : Word) : RegFile :=
  match resolve idx m with
  | none => regs
  | some s => writeSlot regs s v

/-- `REG_READ_RAW` (rule R84): the pattern is recognized strictly, not decoded. -/
def regReadRaw (regs : RegFile) (idx : Nat) (bits : Mode5) : Option Word :=
  match modeOfBits? bits with
  | none => none
  | some m => regRead regs idx m

/-- `REG_WRITE_RAW` (rule R85). -/
def regWriteRaw (regs : RegFile) (idx : Nat) (bits : Mode5) (v : Word) : RegFile :=
  match modeOfBits? bits with
  | none => regs
  | some m => regWrite regs idx m v

/-- `REG_READ` under either form of the mode operand (30_encoding.md rule R65). -/
def regReadOp (regs : RegFile) (idx : Nat) : ModeOperand → Option Word
  | .typed m => regRead regs idx m
  | .raw bits => regReadRaw regs idx bits

/-- `REG_WRITE` under either form of the mode operand. -/
def regWriteOp (regs : RegFile) (idx : Nat) (mo : ModeOperand) (v : Word) : RegFile :=
  match mo with
  | .typed m => regWrite regs idx m v
  | .raw bits => regWriteRaw regs idx bits v

/-! ### Memory -/

/-- `MemRead` (rule R105): the whole span or nothing. -/
def memRead (cartSize : Nat) (mem : Memory) (addr : Addr) (n : Nat) : Option (List Byte) :=
  match memTranslate cartSize addr n with
  | none => none
  | some (b, off) => some (Buffer.readBytes (Memory.buf mem b) off n)

/-- The success of `MemWrite` (rule R106). -/
def memWriteOk (cartSize : Nat) (addr : Addr) (data : List Byte) : Bool :=
  (memTranslate cartSize addr data.length).isSome

/-- The effect of `MemWrite` (rule R106): the whole span or nothing. -/
def memWrite (cartSize : Nat) (mem : Memory) (addr : Addr) (data : List Byte) : Memory :=
  match memTranslate cartSize addr data.length with
  | none => mem
  | some (b, off) => Memory.setBuf mem b (Buffer.writeBytes (Memory.buf mem b) off data)

/-! ### The state -/

/-- The state with an operation's result on the interface. -/
def State.answer (s : State) (r : Result) : State := { s with out := some r }

/-- `R[i]` of a state. -/
def State.reg (s : State) (i : Fin 38) : Word := readSlot s.regs i

/-- `Buf[b][o]` of a state. -/
def State.byte (s : State) (b : BufId) (o : Nat) : Byte := Buffer.read (Memory.buf s.mem b) o

/-- The byte a guest address reads as: one byte of `MemRead`, or none where nothing is mapped. -/
def State.guestByte (s : State) (addr : Addr) : Option Byte :=
  match memTranslate s.cartSize addr 1 with
  | none => none
  | some (b, off) => some (s.byte b off)

/-- The state with a list of operations as the next ones issued, each as its record
(70_reset_and_hazards.md rule R144: a run is a finite sequence of operations chosen by the consumer). -/
def State.issue (s : State) (ops : List Instr) : State :=
  { s with inbox := ops.map encode ++ s.inbox }

/-- The next record the agent issues, and the state once it has been taken (20_memory.md rule R51: one
at a time, in issue order). -/
def fetch (s : State) : Option (Record × State) :=
  match s.inbox with
  | [] => none
  | r :: rest => some (r, { s with inbox := rest })

/-- What a step does when no operation is issued: nothing (10_state.md rule R32; log entry 3). -/
def idle (s : State) : State := s

end Sys2Proof.Machine
end

