-- ==== Sys2Proof/Machine/AddressDecoder.lean ====
section
/-! DEFINITION. The meanings of the Address Space Decoder operations (42_address_decoder_ops.md). -/

namespace Sys2Proof.Machine

/-- `MEM_TRANSLATE` (rule R104). -/
def execMemTranslate (addr : Addr) (n : Nat) (s : State) : Host.Outcome State Fault Refusal :=
  .next (s.answer (.mapping (memTranslate s.cartSize addr n)))

/-- `MEM_READ` (rule R105). -/
def execMemRead (addr : Addr) (n : Nat) (s : State) : Host.Outcome State Fault Refusal :=
  .next (s.answer (.bytes (memRead s.cartSize s.mem addr n)))

/-- `MEM_WRITE` (rule R106): every region is writable (20_memory.md rule R48). -/
def execMemWrite (addr : Addr) (data : List Byte) (s : State) :
    Host.Outcome State Fault Refusal :=
  .next (State.answer { s with mem := memWrite s.cartSize s.mem addr data }
    (.stored (memWriteOk s.cartSize addr data)))

end Sys2Proof.Machine
end

