-- ==== Sys2Proof/Machine/ModePsr.lean ====
section
/-! DEFINITION. The meanings of mode decode and the status-register queries (41_mode_psr_ops.md): pure
functions of the operand, answered at the interface (rule R98). -/

namespace Sys2Proof.Machine

/-- `MODE_DECODE` (rule R89). -/
def execModeDecode (bits : Mode5) (s : State) : Host.Outcome State Fault Refusal :=
  .next (s.answer (.mode (modeDecode bits)))

/-- `PSR_N` (rule R90). -/
def execPsrN (w : Word) (s : State) : Host.Outcome State Fault Refusal :=
  .next (s.answer (.flag (psrN w)))

/-- `PSR_Z` (rule R91). -/
def execPsrZ (w : Word) (s : State) : Host.Outcome State Fault Refusal :=
  .next (s.answer (.flag (psrZ w)))

/-- `PSR_C` (rule R92). -/
def execPsrC (w : Word) (s : State) : Host.Outcome State Fault Refusal :=
  .next (s.answer (.flag (psrC w)))

/-- `PSR_V` (rule R93). -/
def execPsrV (w : Word) (s : State) : Host.Outcome State Fault Refusal :=
  .next (s.answer (.flag (psrV w)))

/-- `PSR_I` (rule R94). -/
def execPsrI (w : Word) (s : State) : Host.Outcome State Fault Refusal :=
  .next (s.answer (.flag (psrI w)))

/-- `PSR_F` (rule R95). -/
def execPsrF (w : Word) (s : State) : Host.Outcome State Fault Refusal :=
  .next (s.answer (.flag (psrF w)))

/-- `PSR_T` (rule R96). -/
def execPsrT (w : Word) (s : State) : Host.Outcome State Fault Refusal :=
  .next (s.answer (.flag (psrT w)))

/-- `PSR_MODE` (rule R97). -/
def execPsrMode (w : Word) (s : State) : Host.Outcome State Fault Refusal :=
  .next (s.answer (.mode (psrMode w)))

end Sys2Proof.Machine
end

