-- ==== Sys2Proof/Machine/RegisterBank.lean ====
section
/-! DEFINITION. The meanings of the Register Bank operations (40_register_bank_ops.md). -/

namespace Sys2Proof.Machine

/-- `REG_READ` (rules R82 and R84): answers the slot's word or absence and changes nothing. -/
def execRegRead (idx : Nat) (mode : ModeOperand) (s : State) : Host.Outcome State Fault Refusal :=
  .next (s.answer (.word (regReadOp s.regs idx mode)))

/-- `REG_WRITE` (rules R83 and R85): overwrites at most one slot, all 32 bits with no mask, and has no
status output. -/
def execRegWrite (idx : Nat) (mode : ModeOperand) (value : Word) (s : State) :
    Host.Outcome State Fault Refusal :=
  .next (State.answer { s with regs := regWriteOp s.regs idx mode value } .written)

end Sys2Proof.Machine
end

