-- ==== Sys2Proof/Machine/Dispatch.lean ====
section
/-! DEFINITION. One arm per operation of 30_encoding.md rule R72. -/

namespace Sys2Proof.Machine

def exec (i : Instr) (s : State) : Host.Outcome State Fault Refusal :=
  match i with
  | .regRead idx mode => Sys2Proof.Machine.execRegRead idx mode s
  | .regWrite idx mode value => Sys2Proof.Machine.execRegWrite idx mode value s
  | .modeDecode bits => Sys2Proof.Machine.execModeDecode bits s
  | .psrN w => Sys2Proof.Machine.execPsrN w s
  | .psrZ w => Sys2Proof.Machine.execPsrZ w s
  | .psrC w => Sys2Proof.Machine.execPsrC w s
  | .psrV w => Sys2Proof.Machine.execPsrV w s
  | .psrI w => Sys2Proof.Machine.execPsrI w s
  | .psrF w => Sys2Proof.Machine.execPsrF w s
  | .psrT w => Sys2Proof.Machine.execPsrT w s
  | .psrMode w => Sys2Proof.Machine.execPsrMode w s
  | .memTranslate addr n => Sys2Proof.Machine.execMemTranslate addr n s
  | .memRead addr n => Sys2Proof.Machine.execMemRead addr n s
  | .memWrite addr data => Sys2Proof.Machine.execMemWrite addr data s

end Sys2Proof.Machine
end

