-- ==== Sys2Proof/Machine/Step.lean ====
section
/-! DEFINITION. One step of the machine: the next operation the agent issues, run as one indivisible
transition (20_memory.md rules R45 and R51, 70_reset_and_hazards.md rule R143). -/

namespace Sys2Proof.Machine

/-- A step takes the next record and runs the operation it names; a record that names none is refused
(30_encoding.md rule R71), and with nothing issued nothing happens. -/
def step (s : State) : Host.Outcome State Fault Refusal :=
  match fetch s with
  | none => .next (idle s)
  | some (r, s') =>
    match decode r with
    | .ok i => exec i s'
    | .error e => .refused (.namesNoOperation e)

/-- The state with the operation of a table word as the next one the agent issues, before whatever it
was about to issue (log entry 10). -/
def State.withFetchWord (s : State) (nbits w : Nat) : State :=
  { s with inbox := tableRecord nbits w :: s.inbox }

end Sys2Proof.Machine
end

