-- ==== Sys2Proof/Machine/Outcomes.lean ====
section
/-! DEFINITION. The outcomes of 60_exceptions.md rule R112, which stand where a manual has exceptions.
They label an operation's result and are stored nowhere (rule R113), so they are a function beside
the machine and no part of its state or of its step. -/

namespace Sys2Proof.Machine

/-- The six outcomes (92_eei_decisions.md D16). -/
inductive OutcomeCode where
  | ok
  | regAbsent
  | regIgnored
  | memNoMapping
  | memNoData
  | memWriteFailed
  deriving DecidableEq, Repr

/-- The numeric codes of rule R112. -/
def OutcomeCode.code : OutcomeCode → Nat
  | .ok => 0
  | .regAbsent => 1
  | .regIgnored => 2
  | .memNoMapping => 3
  | .memNoData => 4
  | .memWriteFailed => 5

/-- The cause of `REG_ABSENT` and `REG_IGNORED`: an index above 17, or a raw pattern that is not one of
the seven (both at once give the same outcome, rule R117). -/
def regCause (idx : Nat) (mode : ModeOperand) : Bool :=
  decide (17 < idx) || (modeOperandMode? mode).isNone

/-- The outcome of an operation, from its causes as rule R112 lists them. -/
def outcomeOf (cartSize : Nat) : Instr → OutcomeCode
  | .regRead idx mode => if regCause idx mode then .regAbsent else .ok
  | .regWrite idx mode _ => if regCause idx mode then .regIgnored else .ok
  | .modeDecode _ => .ok
  | .psrN _ => .ok
  | .psrZ _ => .ok
  | .psrC _ => .ok
  | .psrV _ => .ok
  | .psrI _ => .ok
  | .psrF _ => .ok
  | .psrT _ => .ok
  | .psrMode _ => .ok
  | .memTranslate addr n => if valid cartSize addr n then .ok else .memNoMapping
  | .memRead addr n => if valid cartSize addr n then .ok else .memNoData
  | .memWrite addr data => if valid cartSize addr data.length then .ok else .memWriteFailed

end Sys2Proof.Machine
end

