-- ==== Sys2Proof/Machine/Pseudo.lean ====
section
/-! DEFINITION. The pseudo-operations of 30_encoding.md rule R78, and what a host does with ordinary
operations: install an image and restore a saved state (70_reset_and_hazards.md rule R132). -/

namespace Sys2Proof.Machine

/-- `CPSR_READ m`. -/
def cpsrRead (m : Mode) : Instr := .regRead 16 (.typed m)

/-- `CPSR_WRITE m, v`. -/
def cpsrWrite (m : Mode) (v : Word) : Instr := .regWrite 16 (.typed m) v

/-- `SPSR_READ m`. -/
def spsrRead (m : Mode) : Instr := .regRead 17 (.typed m)

/-- `SPSR_WRITE m, v`. -/
def spsrWrite (m : Mode) (v : Word) : Instr := .regWrite 17 (.typed m) v

/-- `CURRENT_MODE`, read under some mode `m`: `PSR_MODE` of what `REG_READ 16` gives. -/
def currentModeUnder (m : Mode) (s : State) : Option Mode := (regRead s.regs 16 m).map psrMode

/-- `CURRENT_MODE`: the mode field of slot 31, decoded (10_state.md rule R33). -/
def currentMode (s : State) : Mode := psrMode (s.reg 31)

/-- What a consumer issues to enter an exception mode `m` (60_exceptions.md rule R118): the old status
word into `m`'s SPSR, the link value into `m`'s r14, the new status word into CPSR, the vector into
r15, each write passing the mode whose bank it wants.  The values are the consumer's. -/
def entryOps (m : Mode) (oldCpsr link newCpsr vector : Word) : List Instr :=
  [ spsrWrite m oldCpsr,
    .regWrite 14 (.typed m) link,
    cpsrWrite m newCpsr,
    .regWrite 15 (.typed m) vector ]

/-- An (index, mode) pair that reaches a slot (95_test_vectors.md section 2.6). -/
def slotAddress (s : Fin 38) : Nat × Mode :=
  let n := s.val
  let bankMode (k : Nat) : Mode :=
    match k with
    | 0 => .user
    | 1 => .fiq
    | 2 => .irq
    | 3 => .supervisor
    | 4 => .abort
    | _ => .undefined
  if n ≤ 12 then (n, .user)
  else if n ≤ 17 then (n - 5, .fiq)
  else if n ≤ 23 then (13, bankMode (n - 18))
  else if n ≤ 29 then (14, bankMode (n - 24))
  else if n = 30 then (15, .user)
  else if n = 31 then (16, .user)
  else (17, bankMode (n - 32))

/-- The first guest address that reaches a buffer (20_memory.md rule R34). -/
def bufAddress : BufId → Addr
  | .bios => 0x00000000
  | .ewram => 0x02000000
  | .iwram => 0x03000000
  | .io => 0x04000000
  | .pal => 0x05000000
  | .vram => 0x06000000
  | .oam => 0x07000000
  | .cart => 0x08000000
  | .sram => 0x0E000000

/-- One `REG_WRITE` for each of the 38 slots. -/
def restoreRegOps (regs : RegFile) : List Instr :=
  (List.finRange 38).map fun s =>
    .regWrite (slotAddress s).1 (.typed (slotAddress s).2) (readSlot regs s)

/-- One `MEM_WRITE` of its whole contents for each of the nine buffers. -/
def restoreMemOps (cartSize : Nat) (mem : Memory) : List Instr :=
  allBufs.map fun b =>
    .memWrite (bufAddress b) (Buffer.readBytes (Memory.buf mem b) 0 (bufSize cartSize b))

/-- The restoring of a saved state (rule R132). -/
def restoreOps (saved : State) : List Instr :=
  restoreRegOps saved.regs ++ restoreMemOps saved.cartSize saved.mem

end Sys2Proof.Machine
end

