-- ==== Sys2Proof/Machine/Trace.lean ====
section
/-! DEFINITION. The trace notation of 30_encoding.md rule R77: how an operation and its result are
written on one line.  Notation only; the machine does not read it. -/

namespace Sys2Proof.Machine

/-- One hexadecimal digit. -/
def hexDigit (n : Nat) : Char :=
  if n % 16 < 10 then Char.ofNat (48 + n % 16) else Char.ofNat (55 + n % 16)

/-- The lowest `k` hexadecimal digits of a number. -/
def hexFixed : Nat → Nat → List Char
  | 0, _ => []
  | k + 1, n => hexFixed k (n / 16) ++ [hexDigit n]

/-- A number in hexadecimal with no leading zero, of at most `k` digits. -/
def hexShort : Nat → Nat → List Char
  | 0, _ => []
  | k + 1, n => if n < 16 then [hexDigit n] else hexShort k (n / 16) ++ [hexDigit n]

/-- The lowest `k` binary digits of a number. -/
def binFixed : Nat → Nat → List Char
  | 0, _ => []
  | k + 1, n => binFixed k (n / 2) ++ [if n % 2 = 0 then '0' else '1']

/-- `0xXXXXXXXX`. -/
def wordText (w : Word) : List Char := ['0', 'x'] ++ hexFixed 8 w.toNat

/-- The name of a mode in a trace. -/
def modeText : Mode → String
  | .user => "User"
  | .fiq => "FIQ"
  | .irq => "IRQ"
  | .supervisor => "Supervisor"
  | .abort => "Abort"
  | .undefined => "Undefined"
  | .system => "System"

/-- A mode operand: the mode's name, or `#0bXXXXX` in the raw form. -/
def modeOperandText : ModeOperand → String
  | .typed m => modeText m
  | .raw bits => "#0b" ++ String.ofList (binFixed 5 bits.toNat)

/-- The name of a buffer in a trace. -/
def bufText : BufId → String
  | .bios => "BIOS"
  | .ewram => "EWRAM"
  | .iwram => "IWRAM"
  | .io => "IO"
  | .pal => "PAL"
  | .vram => "VRAM"
  | .oam => "OAM"
  | .cart => "CART"
  | .sram => "SRAM"

/-- Bytes as `[XX XX ...]`, lowest address first. -/
def bytesText (bs : List Byte) : String :=
  "[" ++ String.intercalate " " (bs.map fun b => String.ofList (hexFixed 2 b.toNat)) ++ "]"

/-- A 32-bit word as text. -/
def wordString (w : Word) : String := String.ofList (wordText w)

/-- The operation of a trace line, left of the arrow. -/
def opText : Instr → String
  | .regRead idx mode => "REG_READ " ++ toString idx ++ ", " ++ modeOperandText mode
  | .regWrite idx mode value =>
    "REG_WRITE " ++ toString idx ++ ", " ++ modeOperandText mode ++ ", " ++ wordString value
  | .modeDecode bits => "MODE_DECODE 0b" ++ String.ofList (binFixed 5 bits.toNat)
  | .psrN w => "PSR_N " ++ wordString w
  | .psrZ w => "PSR_Z " ++ wordString w
  | .psrC w => "PSR_C " ++ wordString w
  | .psrV w => "PSR_V " ++ wordString w
  | .psrI w => "PSR_I " ++ wordString w
  | .psrF w => "PSR_F " ++ wordString w
  | .psrT w => "PSR_T " ++ wordString w
  | .psrMode w => "PSR_MODE " ++ wordString w
  | .memTranslate addr n => "MEM_TRANSLATE " ++ wordString addr ++ ", " ++ toString n
  | .memRead addr n => "MEM_READ " ++ wordString addr ++ ", " ++ toString n
  | .memWrite addr data => "MEM_WRITE " ++ wordString addr ++ ", " ++ bytesText data

/-- The result of a trace line, with its arrow; `REG_WRITE` has none. -/
def resultText : Result → String
  | .word none => " -> none"
  | .word (some v) => " -> some " ++ wordString v
  | .written => ""
  | .mode m => " -> " ++ modeText m
  | .flag true => " -> true"
  | .flag false => " -> false"
  | .mapping none => " -> none"
  | .mapping (some (b, off)) =>
    " -> some (" ++ bufText b ++ ", 0x" ++ String.ofList (hexShort 8 off) ++ ")"
  | .bytes none => " -> none"
  | .bytes (some d) => " -> some " ++ bytesText d
  | .stored true => " -> true"
  | .stored false => " -> false"

/-- One line of a trace. -/
def traceLine (i : Instr) (r : Result) : String := opText i ++ resultText r

end Sys2Proof.Machine
end

