-- ==== Sys2Proof/Machine/WordViews.lean ====
section
/-! DEFINITION. The word views of 20_memory.md rule R47, a helper for consumers and test vectors: no
operation of the block uses them, and the block itself has no endianness (rule R42). -/

namespace Sys2Proof.Machine

/-- `LE16`, the byte of the lower address first. -/
def le16 (b0 b1 : Byte) : BitVec 16 := b0.setWidth 16 + 256 * b1.setWidth 16

/-- `LE32`, the byte of the lowest address first. -/
def le32 (b0 b1 b2 b3 : Byte) : Word :=
  b0.setWidth 32 + 0x100 * b1.setWidth 32 + 0x10000 * b2.setWidth 32 + 0x1000000 * b3.setWidth 32

/-- `Bytes16`, least significant byte first. -/
def bytes16 (v : BitVec 16) : List Byte := [v.extractLsb' 0 8, v.extractLsb' 8 8]

/-- `Bytes32`, least significant byte first. -/
def bytes32 (v : Word) : List Byte :=
  [v.extractLsb' 0 8, v.extractLsb' 8 8, v.extractLsb' 16 8, v.extractLsb' 24 8]

end Sys2Proof.Machine
end

