-- ==== Sys2Proof/Safety.lean ====
section
/-! DEFINITION. What claims about runs are stated in: the invariant of the machine, the run of a list
of operations, and what the rules say the most recent write to a place was. -/

namespace Sys2Proof.Machine

/-- Every cell lies inside its buffer (10_state.md rule R28). -/
def Memory.inBounds (cartSize : Nat) (mem : Memory) : Bool :=
  allBufs.all fun b => Buffer.below (bufSize cartSize b) (Memory.buf mem b)

/-- The invariant of the machine: `CART_SIZE` within its constraint (00_scope.md rule R8 (c)), memory
in its canonical form, and every cell inside its buffer. -/
def State.inv (s : State) : Bool :=
  decide (1 ≤ s.cartSize) && decide (s.cartSize ≤ 0x02000000) && Memory.wf s.mem &&
    Memory.inBounds s.cartSize s.mem

/-- `State.inv` as a proposition. -/
abbrev State.Inv (s : State) : Prop := s.inv = true

/-- The run of a list of operations issued one after another, each a step (70_reset_and_hazards.md rule
R144). -/
def runOps (ops : List Instr) (s : State) : Host.Outcome State Fault Refusal :=
  Host.Core.run Sys2Proof.core ops.length (s.issue ops)

/-- The slot a register write stores in: the one its index resolves to under the mode its operand
names, none where either is out of range. -/
def writtenSlot (idx : Nat) (mode : ModeOperand) : Option (Fin 38) :=
  (modeOperandMode? mode).bind fun m => resolve idx m

/-- The byte a memory write stores at a buffer offset: the sequence's byte where the write is valid and
its span covers the offset. -/
def writtenByte (cartSize : Nat) (addr : Addr) (data : List Byte) (b : BufId) (o : Nat) :
    Option Byte :=
  (memTranslate cartSize addr data.length).bind fun p =>
    if p.1 = b ∧ p.2 ≤ o then data[o - p.2]? else none

/-- What an operation stores in a register slot. -/
def storedWord (r : Fin 38) : Instr → Option Word
  | .regRead _ _ => none
  | .regWrite idx mode value => if writtenSlot idx mode = some r then some value else none
  | .modeDecode _ => none
  | .psrN _ => none
  | .psrZ _ => none
  | .psrC _ => none
  | .psrV _ => none
  | .psrI _ => none
  | .psrF _ => none
  | .psrT _ => none
  | .psrMode _ => none
  | .memTranslate _ _ => none
  | .memRead _ _ => none
  | .memWrite _ _ => none

/-- What an operation stores at a buffer offset. -/
def storedByte (cartSize : Nat) (b : BufId) (o : Nat) : Instr → Option Byte
  | .regRead _ _ => none
  | .regWrite _ _ _ => none
  | .modeDecode _ => none
  | .psrN _ => none
  | .psrZ _ => none
  | .psrC _ => none
  | .psrV _ => none
  | .psrI _ => none
  | .psrF _ => none
  | .psrT _ => none
  | .psrMode _ => none
  | .memTranslate _ _ => none
  | .memRead _ _ => none
  | .memWrite addr data => writtenByte cartSize addr data b o

/-- The value of the most recent `REG_WRITE` among the operations that resolved to the slot, or the
value before them all (20_memory.md rule R51 (b)). -/
def latestWord (r : Fin 38) (before : Word) (ops : List Instr) : Word :=
  (ops.reverse.findSome? (storedWord r)).getD before

/-- The byte of the most recent `MEM_WRITE` among the operations whose span covered the byte, or the
value before them all (rule R51 (a)). -/
def latestByte (cartSize : Nat) (b : BufId) (o : Nat) (before : Byte) (ops : List Instr) : Byte :=
  (ops.reverse.findSome? (storedByte cartSize b o)).getD before

end Sys2Proof.Machine
end

