-- ==== Sys2Proof/WellFormed.lean ====
section
/-! DEFINITION. Which operations the ports of a given configuration can carry (00_scope.md rule R8
(d), (e); 30_encoding.md rules R66 to R68).  The machine gives every operation its meaning, these
or not: rule R8 lets a model take the index and the size as unbounded naturals (log entry 6). -/

namespace Sys2Proof

/-- The index fits the `IDX_W` bits of the register-index port. -/
def Config.carriesIdx (c : Config) (idx : Nat) : Bool := decide (idx < 2 ^ c.idxW)

/-- The size is at most `SIZE_MAX`. -/
def Config.carriesSize (c : Config) (n : Nat) : Bool := decide (n ≤ c.sizeMax)

/-- Every operand of the operation fits its port.  Mode patterns, status words, data words, guest
addresses and bytes have their port's width in their type. -/
def Instr.wellFormed (c : Config) : Instr → Bool
  | .regRead idx _ => c.carriesIdx idx
  | .regWrite idx _ _ => c.carriesIdx idx
  | .modeDecode _ => true
  | .psrN _ => true
  | .psrZ _ => true
  | .psrC _ => true
  | .psrV _ => true
  | .psrI _ => true
  | .psrF _ => true
  | .psrT _ => true
  | .psrMode _ => true
  | .memTranslate _ n => c.carriesSize n
  | .memRead _ n => c.carriesSize n
  | .memWrite _ data => c.carriesSize data.length

end Sys2Proof
end

