-- ==== Sys2Proof/Certificates/Slice0/Obligations.lean ====
section
/-! DEFINITION. The statements about the machine, taken from the numbered rules of spec/. -/

open Sys2Proof Sys2Proof.Machine

/-! ### Records and steps -/

/-- Writing an operation as its record and reading the record back gives the operation again, with its
mode operand in the form a record has (30_encoding.md rules R65 and R72; log entry 8). -/
def Obligations.DecodeEncodeGivesCanonicalOperation : Prop :=
  ∀ i : Instr, decode (encode i) = .ok i.canonical

/-- The canonical form is the operation itself, but for a raw pattern of one of the seven modes, which
becomes that mode; and it runs as the operation runs, in every state (rules R65, R84, R85). -/
def Obligations.CanonicalOperationRunsAlike : Prop :=
  (∀ (i : Instr) (s : State), exec i.canonical s = exec i s) ∧
  ∀ i : Instr, i.canonical = i ∨ ∃ idx m,
    (i = .regRead idx (.raw (modeEncode m)) ∧ i.canonical = .regRead idx (.typed m)) ∨
    ∃ v, i = .regWrite idx (.raw (modeEncode m)) v ∧ i.canonical = .regWrite idx (.typed m) v

/-- A record that names an operation, none of whose mode patterns is wider than five bits, is that
operation's record: no number of it is dropped (rule R72).  Of a wider mode pattern bits 4–0 alone are
read, in each of the three operations that take one (92_eei_decisions.md D5, the spec's own choice). -/
def Obligations.RecordOfDecodedOperationIsTheRecord : Prop :=
  (∀ (r : Record) (i : Instr), decode r = .ok i → r.patternsFit = true → encode i = r) ∧
  (∀ idx pattern : Nat, decode ⟨0, [idx, pattern]⟩ = decode ⟨0, [idx, pattern % 32]⟩) ∧
  (∀ idx pattern value : Nat,
    decode ⟨1, [idx, pattern, value]⟩ = decode ⟨1, [idx, pattern % 32, value]⟩) ∧
  (∀ pattern : Nat, decode ⟨2, [pattern]⟩ = decode ⟨2, [pattern % 32]⟩)

/-- Ordinals 14 and 15 name no operation, whatever operands follow, and a step whose next record has
one is refused by that name (rule R71). -/
def Obligations.UnassignedOrdinalsAreRefused : Prop :=
  ∀ op : BitVec 4, op = 14 ∨ op = 15 → ∀ args : List Nat,
    decode ⟨op, args⟩ = .error (.unassignedOrdinal op) ∧
    ∀ (s : State) (rest : List Record), s.inbox = ⟨op, args⟩ :: rest →
      step s = .refused (.namesNoOperation (.unassignedOrdinal op))

/-- The fourteen ordinals of the operation table, and eight records that 95_test_vectors.md writes out,
decode to the operations they stand for.  That the operands of a table word are zero and its byte sequence
is empty is the model's choice (log entry 9); that a pattern of one of the seven modes gives the typed form
is the model's reading (log entry 8). -/
def Obligations.WrittenOutRecordsDecode : Prop :=
  (List.range 16).map (decodeTableWord 8) =
    [ some (.regRead 0 (.raw 0)), some (.regWrite 0 (.raw 0) 0), some (.modeDecode 0),
      some (.psrN 0), some (.psrZ 0), some (.psrC 0), some (.psrV 0), some (.psrI 0),
      some (.psrF 0), some (.psrT 0), some (.psrMode 0), some (.memTranslate 0 0),
      some (.memRead 0 0), some (.memWrite 0 []), none, none ] ∧
  decode ⟨0, [13, 0x12]⟩ = .ok (.regRead 13 (.typed .irq)) ∧
  decode ⟨0, [0, 0x00]⟩ = .ok (.regRead 0 (.raw 0b00000)) ∧
  decode ⟨1, [14, 0x13, 0x08000124]⟩ = .ok (.regWrite 14 (.typed .supervisor) 0x08000124) ∧
  decode ⟨2, [0x12]⟩ = .ok (.modeDecode 0b10010) ∧
  decode ⟨10, [0x6000001F]⟩ = .ok (.psrMode 0x6000001F) ∧
  decode ⟨11, [0x03007FFC, 4]⟩ = .ok (.memTranslate 0x03007FFC 4) ∧
  decode ⟨12, [0x02000000, 4]⟩ = .ok (.memRead 0x02000000 4) ∧
  decode ⟨13, [0x02000000, 0x78, 0x56]⟩ = .ok (.memWrite 0x02000000 [0x78, 0x56])

/-- A step takes the next record off the inbox and is exactly `exec` of the operation the record names;
a record that names none is refused; with nothing issued nothing changes.  The spec says to refuse a
record of ordinal 14 or 15 (rule R71); refusing every other record that does not decode is the model's
choice (log entry 5), and so are the inbox (log entry 1) and the step with nothing issued (log entry 3). -/
def Obligations.StepRunsTheDecodedOperation : Prop :=
  ∀ s : State,
    (∀ r rest i, s.inbox = r :: rest → decode r = .ok i → step s = exec i { s with inbox := rest }) ∧
    (∀ r rest e, s.inbox = r :: rest → decode r = .error e →
      step s = .refused (.namesNoOperation e)) ∧
    (s.inbox = [] → step s = .next s)

/-! ### The register bank -/

/-- Rule R22: when two (index, mode) pairs share a slot. -/
def Obligations.SlotsSharedBetweenModes : Prop :=
  (∀ i : Fin 18, i.val ≤ 7 ∨ i = 15 ∨ i = 16 → ∀ m m', slot i m = slot i m' ∧
    ∀ (regs : RegFile) v, regRead (regWrite regs i m v) i m' = some v) ∧
  (∀ i : Fin 18, 8 ≤ i.val → i.val ≤ 12 → ∀ m m',
    (slot i m = slot i m' ↔ (m = .fiq ∧ m' = .fiq) ∨ (m ≠ .fiq ∧ m' ≠ .fiq))) ∧
  (∀ i : Fin 18, i = 13 ∨ i = 14 ∨ i = 17 → ∀ m m',
    (slot i m = slot i m' ↔ bank m = bank m') ∧
    (bank m = bank m' ↔ m = m' ∨ (m = .user ∧ m' = .system) ∨ (m = .system ∧ m' = .user))) ∧
  (∀ i i' m m', slot i m = slot i' m' → i = i')

/-- The slot of every (index, mode) pair, as the table of 95_test_vectors.md section 2.6 has it (modes
in the order of rule R13), and every one of the 38 slots is some pair's (rules R19 to R21). -/
def Obligations.SlotOfEveryIndexAndMode : Prop :=
  ((List.finRange 18).map fun i => allModes.map fun m => (slot i m).val) =
    ((List.range 8).map fun i => [i, i, i, i, i, i, i]) ++
    [ [8, 13, 8, 8, 8, 8, 8],
      [9, 14, 9, 9, 9, 9, 9],
      [10, 15, 10, 10, 10, 10, 10],
      [11, 16, 11, 11, 11, 11, 11],
      [12, 17, 12, 12, 12, 12, 12],
      [18, 19, 20, 21, 22, 23, 18],
      [24, 25, 26, 27, 28, 29, 24],
      [30, 30, 30, 30, 30, 30, 30],
      [31, 31, 31, 31, 31, 31, 31],
      [32, 33, 34, 35, 36, 37, 32] ] ∧
  ∀ r : Fin 38, ∃ i m, slot i m = r

/-- Rule R82: `REG_READ` with a typed mode answers the word in the pair's slot for an index 0 to 17 and
absence above, and changes nothing; and the record of the operation. -/
def Obligations.RegReadAnswersTheSlot : Prop :=
  ∀ (s : State) (m : Mode),
    (∀ idx : Nat, encode (.regRead idx (.typed m)) = ⟨0, [idx, (modeEncode m).toNat]⟩) ∧
    (∀ i : Fin 18, exec (.regRead i (.typed m)) s =
      .next { s with out := some (.word (some (s.reg (slot i m)))) }) ∧
    (∀ idx : Nat, 17 < idx → exec (.regRead idx (.typed m)) s =
      .next { s with out := some (.word none) })

/-- Rule R83: `REG_WRITE` with a typed mode makes the pair's slot hold the value, all 32 bits of it, for
an index 0 to 17, with every other slot and all of memory unchanged; above 17 nothing changes and
nothing is reported; and the record of the operation. -/
def Obligations.RegWriteOverwritesTheSlot : Prop :=
  ∀ (s : State) (m : Mode) (v : Word),
    (∀ idx : Nat, encode (.regWrite idx (.typed m) v) =
      ⟨1, [idx, (modeEncode m).toNat, v.toNat]⟩) ∧
    (∀ i : Fin 18, ∃ t, exec (.regWrite i (.typed m) v) s = .next t ∧
      t.reg (slot i m) = v ∧ (∀ r, r ≠ slot i m → t.reg r = s.reg r) ∧ t.mem = s.mem ∧
      t.cartSize = s.cartSize ∧ t.inbox = s.inbox ∧ t.out = some .written) ∧
    (∀ idx : Nat, 17 < idx → exec (.regWrite idx (.typed m) v) s =
      .next { s with out := some .written })

/-- Rules R84 and R85: a raw pattern that is a mode's runs as that mode; for each of the 25 others, and
every index, a read answers absence and a write changes nothing. -/
def Obligations.RawPatternIsRecognizedStrictly : Prop :=
  ∀ (s : State) (idx : Nat) (v : Word),
    (∀ m, exec (.regRead idx (.raw (modeEncode m))) s = exec (.regRead idx (.typed m)) s ∧
      exec (.regWrite idx (.raw (modeEncode m)) v) s = exec (.regWrite idx (.typed m) v) s) ∧
    (∀ bits : Mode5, (∀ m, bits ≠ modeEncode m) →
      exec (.regRead idx (.raw bits)) s = .next { s with out := some (.word none) } ∧
      exec (.regWrite idx (.raw bits) v) s = .next { s with out := some .written })

/-- Rule R86: after a write, the pair reads the value, every pair with the same slot reads the value, and
every pair with another slot reads what it read before. -/
def Obligations.BankingSymmetry : Prop :=
  ∀ (s : State) (i : Fin 18) (m : Mode) (v : Word),
    ∃ t, exec (.regWrite i (.typed m) v) s = .next t ∧
      exec (.regRead i (.typed m)) t = .next { t with out := some (.word (some v)) } ∧
      (∀ i' m', slot i' m' = slot i m →
        exec (.regRead i' (.typed m')) t = .next { t with out := some (.word (some v)) }) ∧
      (∀ i' m', slot i' m' ≠ slot i m → ∃ w,
        exec (.regRead i' (.typed m')) s = .next { s with out := some (.word w) } ∧
        exec (.regRead i' (.typed m')) t = .next { t with out := some (.word w) })

/-- Rule R87: index 17 under User or System, and no other pair, is slot 32, which reads and writes like
any word and changes no other slot, CPSR and the other saved words among them; a write to index 17 under
an exception mode leaves it as it was. -/
def Obligations.SavedStatusOfUserAndSystem : Prop :=
  ∀ (s : State) (v : Word),
    (∀ i m, slot i m = 32 ↔ i = 17 ∧ (m = .user ∨ m = .system)) ∧
    (∀ m, m = .user ∨ m = .system → ∃ t, exec (.regWrite 17 (.typed m) v) s = .next t ∧
      t.reg 32 = v ∧ (∀ r, r ≠ 32 → t.reg r = s.reg r) ∧
      ∀ m', m' = .user ∨ m' = .system →
        exec (.regRead 17 (.typed m')) t = .next { t with out := some (.word (some v)) }) ∧
    (∀ m, m ≠ .user → m ≠ .system → ∃ t, exec (.regWrite 17 (.typed m) v) s = .next t ∧
      t.reg 32 = s.reg 32)

/-- Rule R88, for both forms of the mode operand: a read changes nothing; a write changes at most the
slot it resolves to and nothing else; writes to different slots commute; of two writes to one slot the
later value stands. -/
def Obligations.RegisterBankFrame : Prop :=
  (∀ (s : State) idx mo, ∃ w, exec (.regRead idx mo) s = .next { s with out := some (.word w) }) ∧
  (∀ (s : State) idx mo v, ∃ t, exec (.regWrite idx mo v) s = .next t ∧
    (∀ r, writtenSlot idx mo ≠ some r → t.reg r = s.reg r) ∧ t.mem = s.mem ∧
    t.cartSize = s.cartSize ∧ t.inbox = s.inbox) ∧
  (∀ (s : State) idx mo v idx' mo' v', writtenSlot idx mo ≠ writtenSlot idx' mo' →
    runOps [.regWrite idx mo v, .regWrite idx' mo' v'] s =
      runOps [.regWrite idx' mo' v', .regWrite idx mo v] s) ∧
  (∀ (s : State) idx mo v idx' mo' v', writtenSlot idx mo = writtenSlot idx' mo' →
    runOps [.regWrite idx mo v, .regWrite idx' mo' v'] s = runOps [.regWrite idx' mo' v'] s)

/-- Rules R33, R79 and R116: the status word in CPSR, its mode, I and F bits among the rest, steers no
operation.  Whatever it holds, every operation answers alike, but for a read of index 16, and leaves
every other slot and all of memory alike. -/
def Obligations.CpsrSteersNoOperation : Prop :=
  ∀ (i : Instr) (s : State) (c : Word), ∃ t t', exec i s = .next t ∧
    exec i { s with regs := writeSlot s.regs 31 c } = .next t' ∧
    (∀ r, r ≠ 31 → t'.reg r = t.reg r) ∧ t'.mem = t.mem ∧
    ((∀ mo, i ≠ .regRead 16 mo) → t'.out = t.out)

/-- Rules R78, R121 and R136: writing CPSR under any mode stores the word as given and changes nothing
else; the current mode is then what its low five bits decode to, under whatever mode it is read. -/
def Obligations.WritingCpsrEntersAMode : Prop :=
  ∀ (s : State) (m : Mode) (v : Word), ∃ t, exec (cpsrWrite m v) s = .next t ∧
    t.reg 31 = v ∧ (∀ r, r ≠ 31 → t.reg r = s.reg r) ∧ t.mem = s.mem ∧
    currentMode t = modeDecode (v.extractLsb' 0 5) ∧
    ∀ m', exec (cpsrRead m') t = .next { t with out := some (.word (some v)) } ∧
      currentModeUnder m' t = some (currentMode t)

/-- Rules R118 and R119: the writes a consumer issues to enter an exception mode leave the old status
word in the mode's SPSR, the link value in its r14, the new status word in CPSR and the vector in r15,
and change nothing else; the SPSR then reads as the old status word, and writing that word to CPSR, under
any mode, restores it and changes nothing else. -/
def Obligations.TrapEntryAndReturnByExplicitWrites : Prop :=
  ∀ (s : State) (m : Mode) (link new vector : Word), ∃ t,
    runOps (entryOps m (s.reg 31) link new vector) s = .next t ∧
    t.reg (slot 17 m) = s.reg 31 ∧ t.reg (slot 14 m) = link ∧ t.reg 31 = new ∧
    t.reg 30 = vector ∧
    (∀ r, r ≠ slot 17 m → r ≠ slot 14 m → r ≠ 31 → r ≠ 30 → t.reg r = s.reg r) ∧
    t.mem = s.mem ∧ t.cartSize = s.cartSize ∧ t.inbox = s.inbox ∧
    exec (spsrRead m) t = .next { t with out := some (.word (some (s.reg 31))) } ∧
    ∀ m', ∃ u, exec (cpsrWrite m' (s.reg 31)) t = .next u ∧ u.reg 31 = s.reg 31 ∧
      (∀ r, r ≠ 31 → u.reg r = t.reg r) ∧ u.mem = t.mem ∧ u.cartSize = t.cartSize ∧
      u.inbox = t.inbox

/-! ### Mode decode and status-register queries -/

/-- Rule R89, over the patterns of rule R63: each of the seven patterns decodes to its mode, each of the
25 others to `Undefined`, so `Undefined` is the answer for 26 of the 32; and of a wider number only bits
4–0 are used. -/
def Obligations.ModeDecodeNeverRejects : Prop :=
  allModes.map modeEncode =
    [0b10000, 0b10001, 0b10010, 0b10011, 0b10111, 0b11011, 0b11111] ∧
  (∀ (s : State) m, exec (.modeDecode (modeEncode m)) s = .next { s with out := some (.mode m) }) ∧
  (∀ (s : State) (bits : Mode5), (∀ m, bits ≠ modeEncode m) →
    exec (.modeDecode bits) s = .next { s with out := some (.mode .undefined) }) ∧
  ((List.range 32).filter fun k => modeDecode (BitVec.ofNat 5 k) = .undefined).length = 26 ∧
  (∀ x : Nat, decode ⟨2, [x]⟩ = .ok (.modeDecode (BitVec.ofNat 5 x)))

/-- Rules R90 to R96: each flag query answers whether the bit of its mask is set in the word, and changes
nothing else; and the records of the queries. -/
def Obligations.FlagQueriesTestTheirMask : Prop :=
  ∀ (s : State) (w : Word),
    [Instr.psrN w, .psrZ w, .psrC w, .psrV w, .psrI w, .psrF w, .psrT w].map encode =
      [⟨3, [w.toNat]⟩, ⟨4, [w.toNat]⟩, ⟨5, [w.toNat]⟩, ⟨6, [w.toNat]⟩, ⟨7, [w.toNat]⟩,
        ⟨8, [w.toNat]⟩, ⟨9, [w.toNat]⟩] ∧
    exec (.psrN w) s = .next { s with out := some (.flag (w &&& 0x80000000 != 0)) } ∧
    exec (.psrZ w) s = .next { s with out := some (.flag (w &&& 0x40000000 != 0)) } ∧
    exec (.psrC w) s = .next { s with out := some (.flag (w &&& 0x20000000 != 0)) } ∧
    exec (.psrV w) s = .next { s with out := some (.flag (w &&& 0x10000000 != 0)) } ∧
    exec (.psrI w) s = .next { s with out := some (.flag (w &&& 0x00000080 != 0)) } ∧
    exec (.psrF w) s = .next { s with out := some (.flag (w &&& 0x00000040 != 0)) } ∧
    exec (.psrT w) s = .next { s with out := some (.flag (w &&& 0x00000020 != 0)) }

/-- Rule R97: whatever bits 31–5 hold, `PSR_MODE` is mode decode of bits 4–0: a word with a mode's pattern
there answers that mode, and one with any other pattern answers `Undefined`; and the record of the query. -/
def Obligations.PsrModeDecodesTheModeField : Prop :=
  ∀ (s : State) (high : BitVec 27),
    (∀ bits : Mode5, encode (.psrMode (high ++ bits)) = ⟨10, [32 * high.toNat + bits.toNat]⟩ ∧
      exec (.psrMode (high ++ bits)) s = exec (.modeDecode bits) s) ∧
    (∀ m, exec (.psrMode (high ++ modeEncode m)) s = .next { s with out := some (.mode m) }) ∧
    (∀ bits : Mode5, (∀ m, bits ≠ modeEncode m) →
      exec (.psrMode (high ++ bits)) s = .next { s with out := some (.mode .undefined) })

/-- Rule R98: two words that agree under a query's mask get one answer, in any two states; mode decode
answers alike in any two states; none of the nine changes anything. -/
def Obligations.QueriesReadOnlyTheirMask : Prop :=
  ∀ s s' : State,
    (∀ q : Word × (Word → Instr), q ∈
      [ ((0x80000000 : Word), Instr.psrN), (0x40000000, .psrZ), (0x20000000, .psrC),
        (0x10000000, .psrV), (0x00000080, .psrI), (0x00000040, .psrF), (0x00000020, .psrT),
        (0x0000001F, .psrMode) ] →
      ∀ w w' : Word, w &&& q.1 = w' &&& q.1 → ∃ r, exec (q.2 w) s = .next { s with out := some r } ∧
        exec (q.2 w') s' = .next { s' with out := some r }) ∧
    (∀ bits : Mode5, ∃ r, exec (.modeDecode bits) s = .next { s with out := some r } ∧
      exec (.modeDecode bits) s' = .next { s' with out := some r })

/-- Rule R99: a status word is determined by its seven flags, its raw mode field and its twenty
uninterpreted bits, and not by what the queries answer. -/
def Obligations.StatusWordIsItsFields : Prop :=
  (∀ w w' : Word, psrN w = psrN w' → psrZ w = psrZ w' → psrC w = psrC w' → psrV w = psrV w' →
    psrI w = psrI w' → psrF w = psrF w' → psrT w = psrT w' → psrField w = psrField w' →
    psrUninterpreted w = psrUninterpreted w' → w = w') ∧
  ∃ w w' : Word, w ≠ w' ∧ psrN w = psrN w' ∧ psrZ w = psrZ w' ∧ psrC w = psrC w' ∧
    psrV w = psrV w' ∧ psrI w = psrI w' ∧ psrF w = psrF w' ∧ psrT w = psrT w' ∧
    psrMode w = psrMode w'

/-- Rule R100: the queries of the word of all zeros and of the word of all ones. -/
def Obligations.QueriesOfAllZerosAndAllOnes : Prop :=
  ∀ s : State,
    (∀ q ∈ [Instr.psrN, .psrZ, .psrC, .psrV, .psrI, .psrF, .psrT],
      exec (q 0x00000000) s = .next { s with out := some (.flag false) } ∧
      exec (q 0xFFFFFFFF) s = .next { s with out := some (.flag true) }) ∧
    exec (.psrMode 0x00000000) s = .next { s with out := some (.mode .undefined) } ∧
    exec (.psrMode 0xFFFFFFFF) s = .next { s with out := some (.mode .system) }

/-! ### The address space decoder -/

/-- Rules R28, R29 and R34: the declared ranges and buffers of the region table, the effective lengths for
every `CART_SIZE`, and the total size of the buffers with the default one. -/
def Obligations.RegionTableAsDeclared : Prop :=
  (regionTable.map fun r => (r.lo, r.lo + r.declared - 1, r.buf)) =
    [ (0x00000000, 0x00003FFF, .bios), (0x02000000, 0x0203FFFF, .ewram),
      (0x03000000, 0x03007FFF, .iwram), (0x04000000, 0x040003FE, .io),
      (0x05000000, 0x050003FF, .pal), (0x06000000, 0x06017FFF, .vram),
      (0x07000000, 0x070003FF, .oam), (0x08000000, 0x09FFFFFF, .cart),
      (0x0A000000, 0x0BFFFFFF, .cart), (0x0C000000, 0x0DFFFFFF, .cart),
      (0x0E000000, 0x0E00FFFF, .sram) ] ∧
  (∀ c : Nat, c ≤ 0x02000000 → (regionTable.map fun r => r.effLen c) =
    [0x4000, 0x40000, 0x8000, 0x3FF, 0x400, 0x18000, 0x400, c, c, c, 0x10000]) ∧
  (allBufs.map (bufSize 0x8000)).sum = 0x7CBFF

/-- Rule R104, in arithmetic of natural numbers: the entry whose effective range holds the start address
gives its buffer and the offset into it if the span ends inside the entry, and no mapping if not; with
no such entry there is no mapping; nothing changes; and the record of the operation. -/
def Obligations.TranslateGivesBufferAndOffset : Prop :=
  ∀ (s : State) (addr : Addr) (n : Nat),
    encode (.memTranslate addr n) = ⟨11, [addr.toNat, n]⟩ ∧
    (∀ r ∈ regionTable, r.lo ≤ addr.toNat → addr.toNat - r.lo < r.effLen s.cartSize →
      (addr.toNat - r.lo + n ≤ r.effLen s.cartSize →
        exec (.memTranslate addr n) s =
          .next { s with out := some (.mapping (some (r.buf, addr.toNat - r.lo))) }) ∧
      (r.effLen s.cartSize < addr.toNat - r.lo + n →
        exec (.memTranslate addr n) s = .next { s with out := some (.mapping none) })) ∧
    ((∀ r ∈ regionTable, ¬ (r.lo ≤ addr.toNat ∧ addr.toNat - r.lo < r.effLen s.cartSize)) →
      exec (.memTranslate addr n) s = .next { s with out := some (.mapping none) })

/-- Rule R36: an access is valid exactly where some entry's effective range holds its start address and
its span ends inside that entry, and exactly where the translation gives a mapping; and the effective
ranges of at most one entry hold a start address. -/
def Obligations.ValidExactlyWhereMapped : Prop :=
  (∀ (c : Nat) (addr : Addr) (n : Nat),
    (valid c addr n = true ↔ ∃ r ∈ regionTable, r.lo ≤ addr.toNat ∧
      addr.toNat ≤ r.lo + r.effLen c - 1 ∧ addr.toNat - r.lo + n ≤ r.effLen c) ∧
    (valid c addr n = true ↔ ∃ b off, memTranslate c addr n = some (b, off))) ∧
  (∀ (c a : Nat), ∀ r ∈ regionTable, ∀ r' ∈ regionTable,
    r.covers c a = true → r'.covers c a = true → r = r')

/-- Rule R69: the two-step decode, by `addr[31:24]` and then the range check on the low bits, and the scan
of the region table are one function, for every `CART_SIZE`, address and size. -/
def Obligations.TwoStepDecodeIsTheScan : Prop :=
  ∀ (c : Nat) (addr : Addr) (n : Nat), coarseTranslate c addr n = memTranslate c addr n

/-- Rule R35: with the default `CART_SIZE`, the addresses at which every access is invalid are exactly the
eleven gaps the rule lists.  The three gaps in the cartridge windows rest on 92_eei_decisions.md D10, the
spec's own choice that an access past `CART_SIZE` is rejected (rule R37). -/
def Obligations.UnmappedAddressesAreTheGaps : Prop :=
  ∀ addr : Addr, (∀ n, memTranslate 0x8000 addr n = none) ↔
    ∃ g ∈ [ (0x00004000, 0x01FFFFFF), (0x02040000, 0x02FFFFFF), (0x03008000, 0x03FFFFFF),
        (0x040003FF, 0x04FFFFFF), (0x05000400, 0x05FFFFFF), (0x06018000, 0x06FFFFFF),
        (0x07000400, 0x07FFFFFF), (0x08008000, 0x09FFFFFF), (0x0A008000, 0x0BFFFFFF),
        (0x0C008000, 0x0DFFFFFF), (0x0E010000, 0xFFFFFFFF) ],
      g.1 ≤ addr.toNat ∧ addr.toNat ≤ g.2

/-- Rule R108: inside the backed part of the windows, a read at one offset answers the same bytes through
all three, and what is written through any of them is read back through any of them. -/
def Obligations.CartridgeWindowsReadAlike : Prop :=
  ∀ (s : State) (d : Nat), s.cartSize ≤ 0x02000000 → d < s.cartSize →
    (∀ n, d + n ≤ s.cartSize → ∃ l : List Byte, ∀ lo ∈ [0x08000000, 0x0A000000, 0x0C000000],
      exec (.memRead (BitVec.ofNat 32 (lo + d)) n) s =
        .next { s with out := some (.bytes (some l)) }) ∧
    (∀ data : List Byte, Memory.wf s.mem = true → d + data.length ≤ s.cartSize →
      ∀ lo ∈ [0x08000000, 0x0A000000, 0x0C000000], ∀ lo' ∈ [0x08000000, 0x0A000000, 0x0C000000],
      ∃ t, exec (.memWrite (BitVec.ofNat 32 (lo + d)) data) s = .next t ∧
        t.out = some (.stored true) ∧
        exec (.memRead (BitVec.ofNat 32 (lo' + d)) data.length) t =
          .next { t with out := some (.bytes (some data)) })

/-- Rule R39: an access of size zero succeeds exactly at an address in some effective range: it gives the
buffer and offset, an empty read, a write that changes nothing. -/
def Obligations.ZeroSizeAccesses : Prop :=
  ∀ (s : State) (addr : Addr), Memory.wf s.mem = true →
    (∀ r ∈ regionTable, r.covers s.cartSize addr.toNat = true →
      exec (.memTranslate addr 0) s =
        .next { s with out := some (.mapping (some (r.buf, addr.toNat - r.lo))) } ∧
      exec (.memRead addr 0) s = .next { s with out := some (.bytes (some [])) } ∧
      exec (.memWrite addr []) s = .next { s with out := some (.stored true) }) ∧
    ((∀ r ∈ regionTable, r.covers s.cartSize addr.toNat = false) →
      exec (.memTranslate addr 0) s = .next { s with out := some (.mapping none) } ∧
      exec (.memRead addr 0) s = .next { s with out := some (.bytes none) } ∧
      exec (.memWrite addr []) s = .next { s with out := some (.stored false) })

/-- Rule R105: on a mapped span `MEM_READ` answers its bytes, element `j` from the offset of address
`addr + j`; on any other it answers no data; nothing changes; and the record of the operation. -/
def Obligations.ReadAnswersTheWholeSpanOrNothing : Prop :=
  ∀ (s : State) (addr : Addr) (n : Nat),
    encode (.memRead addr n) = ⟨12, [addr.toNat, n]⟩ ∧
    (∀ b off, memTranslate s.cartSize addr n = some (b, off) →
      ∃ l : List Byte, exec (.memRead addr n) s = .next { s with out := some (.bytes (some l)) } ∧
        l.length = n ∧ ∀ j, j < n → l[j]? = some (s.byte b (off + j))) ∧
    (memTranslate s.cartSize addr n = none →
      exec (.memRead addr n) s = .next { s with out := some (.bytes none) })

/-- Rule R106: on a mapped span `MEM_WRITE` stores element `j` at the offset of address `addr + j`, reports
success, and leaves every other byte of every buffer and every register as it was; on any other span it
reports failure and changes nothing; and the record of the operation. -/
def Obligations.WriteStoresTheWholeSpanOrNothing : Prop :=
  ∀ (s : State) (addr : Addr) (data : List Byte), Memory.wf s.mem = true →
    encode (.memWrite addr data) = ⟨13, addr.toNat :: data.map BitVec.toNat⟩ ∧
    (∀ b off, memTranslate s.cartSize addr data.length = some (b, off) →
      ∃ t, exec (.memWrite addr data) s = .next t ∧ t.out = some (.stored true) ∧
        (∀ j v, data[j]? = some v → t.byte b (off + j) = v) ∧
        (∀ b' o, b' ≠ b ∨ o < off ∨ off + data.length ≤ o → t.byte b' o = s.byte b' o) ∧
        t.regs = s.regs ∧ t.cartSize = s.cartSize ∧ t.inbox = s.inbox) ∧
    (memTranslate s.cartSize addr data.length = none →
      exec (.memWrite addr data) s = .next { s with out := some (.stored false) })

/-- The frame of `MEM_WRITE` by guest address (rules R56 and R106): an address that does not resolve into
the stored range reads as before, through whatever window. -/
def Obligations.WriteLeavesOtherGuestBytesAlone : Prop :=
  ∀ (s : State) (addr : Addr) (data : List Byte), Memory.wf s.mem = true →
    ∃ t, exec (.memWrite addr data) s = .next t ∧
      ∀ a : Addr,
        (∀ b off o, memTranslate s.cartSize addr data.length = some (b, off) →
          memTranslate s.cartSize a 1 = some (b, o) → o < off ∨ off + data.length ≤ o) →
        t.guestByte a = s.guestByte a

/-- Rule R107: a successful write is read back whole; and a later read of any mapped span differs from the
read before only in positions that resolve into the written range. -/
def Obligations.WriteReadRoundTrip : Prop :=
  ∀ (s : State) (addr : Addr) (data : List Byte) (b : BufId) (off : Nat),
    Memory.wf s.mem = true → memTranslate s.cartSize addr data.length = some (b, off) →
    ∃ t, exec (.memWrite addr data) s = .next t ∧ t.out = some (.stored true) ∧
      exec (.memRead addr data.length) t = .next { t with out := some (.bytes (some data)) } ∧
      ∀ (addr' : Addr) (n' : Nat) (b' : BufId) (off' : Nat),
        memTranslate s.cartSize addr' n' = some (b', off') →
        ∃ l l' : List Byte,
          exec (.memRead addr' n') s = .next { s with out := some (.bytes (some l)) } ∧
          exec (.memRead addr' n') t = .next { t with out := some (.bytes (some l')) } ∧
          ∀ j, b' ≠ b ∨ off' + j < off ∨ off + data.length ≤ off' + j → l'[j]? = l[j]?

/-- Rule R46: repeating a translation, a read or a write at once leaves the state that doing it once
leaves. -/
def Obligations.MemoryOperationsAreIdempotent : Prop :=
  ∀ s : State, Memory.wf s.mem = true →
    (∀ addr n, runOps [.memTranslate addr n, .memTranslate addr n] s =
      runOps [.memTranslate addr n] s) ∧
    (∀ addr n, runOps [.memRead addr n, .memRead addr n] s = runOps [.memRead addr n] s) ∧
    (∀ addr data, runOps [.memWrite addr data, .memWrite addr data] s =
      runOps [.memWrite addr data] s)

/-- Rule R59: the translation of a span is one value, whatever the buffers, the registers and the history
hold; and it is a mapping exactly when a read of the span gives bytes and exactly when a write of as many
bytes succeeds. -/
def Obligations.OneValidityForAllThreeMemoryOperations : Prop :=
  ∀ (c : Nat) (addr : Addr) (data : List Byte), ∃ r : Option (BufId × Nat),
    ∀ s : State, s.cartSize = c →
      exec (.memTranslate addr data.length) s = .next { s with out := some (.mapping r) } ∧
      (∃ d, exec (.memRead addr data.length) s = .next { s with out := some (.bytes d) } ∧
        d.isSome = r.isSome) ∧
      (∃ t, exec (.memWrite addr data) s = .next t ∧ t.out = some (.stored r.isSome))

/-- Rule R110, for every entry of the region table and every `CART_SIZE` of its range.  With the windows
fully backed, clauses (b) and (e) fail for three neighbours and not only for the two the rule names: the
byte after window 2 is the first of SRAM (log entry 13).  That accesses past `CART_SIZE` fail rests on
92_eei_decisions.md D10, the spec's own choice. -/
def Obligations.RegionContainment : Prop :=
  ∀ c : Nat, 1 ≤ c → c ≤ 0x02000000 →
    (∀ r ∈ regionTable,
      memTranslate c (BitVec.ofNat 32 r.lo) (r.effLen c) = some (r.buf, 0) ∧
      (c < 0x02000000 ∨ r.buf ≠ .cart →
        ∀ n, memTranslate c (BitVec.ofNat 32 (r.lo + r.effLen c)) n = none) ∧
      memTranslate c (BitVec.ofNat 32 r.lo) (r.effLen c + 1) = none ∧
      memTranslate c (BitVec.ofNat 32 (r.lo + r.effLen c - 1)) 1 =
        some (r.buf, r.effLen c - 1) ∧
      memTranslate c (BitVec.ofNat 32 (r.lo + r.effLen c - 1)) 2 = none ∧
      (r.lo ≠ 0 →
        c < 0x02000000 ∨ (r.lo ≠ 0x0A000000 ∧ r.lo ≠ 0x0C000000 ∧ r.lo ≠ 0x0E000000) →
        memTranslate c (BitVec.ofNat 32 (r.lo - 1)) 1 = none)) ∧
    (c = 0x02000000 →
      memTranslate c 0x0A000000 1 = some (.cart, 0) ∧
      memTranslate c 0x0C000000 1 = some (.cart, 0) ∧
      memTranslate c 0x0E000000 1 = some (.sram, 0) ∧
      memTranslate c 0x09FFFFFF 1 = some (.cart, 0x01FFFFFF) ∧
      memTranslate c 0x0BFFFFFF 1 = some (.cart, 0x01FFFFFF) ∧
      memTranslate c 0x0DFFFFFF 1 = some (.cart, 0x01FFFFFF))

/-! ### The whole machine -/

/-- Rules R30, R31 and R130, for every configuration: what every slot and every byte holds after reset, and
the mode and masks the status word then has.  That BIOS holds zeros past the end of a short image is the
model's choice (log entry 4). -/
def Obligations.ResetState : Prop :=
  State.reset = State.boot Config.default ∧ Config.default.pcReset = 0 ∧
  Config.default.biosInit = [] ∧
  ∀ c : Config,
    (∀ r : Fin 38, r ≠ 30 → (State.boot c).reg r = 0) ∧ (State.boot c).reg 30 = c.pcReset ∧
    (∀ b o, b ≠ .bios → (State.boot c).byte b o = 0) ∧
    (∀ o, (State.boot c).byte .bios o = (c.biosInit[o]?).getD 0) ∧
    currentMode (State.boot c) = .undefined ∧
    slot 13 (currentMode (State.boot c)) = 23 ∧ slot 14 (currentMode (State.boot c)) = 29 ∧
    slot 17 (currentMode (State.boot c)) = 37 ∧
    (∀ i : Fin 18, 8 ≤ i.val → i.val ≤ 12 →
      (slot i (currentMode (State.boot c))).val = i.val) ∧
    psrI ((State.boot c).reg 31) = false ∧ psrF ((State.boot c).reg 31) = false ∧
    psrT ((State.boot c).reg 31) = false

/-- The invariant holds after reset, for every configuration within the constraints of rule R8. -/
def Obligations.ResetMeetsTheInvariant : Prop :=
  (∀ c : Config, c.wf = true → (State.boot c).Inv) ∧ State.reset.Inv

/-- Every step keeps the invariant: memory stays in its canonical form, no cell leaves its buffer
(20_memory.md rule R37), and `CART_SIZE` stays what it was (00_scope.md rule R8). -/
def Obligations.StepKeepsTheInvariant : Prop :=
  ∀ s t : State, s.Inv → step s = .next t → t.Inv ∧ t.cartSize = s.cartSize

/-- Rules R16, R24 and R32, over all operations: a slot changes only by a `REG_WRITE` that resolves to it
and then holds its value; a byte changes only by a `MEM_WRITE` whose mapped span covers it and then
holds its byte; nothing else changes but the answer. -/
def Obligations.OnlyTheTwoWritesChangeState : Prop :=
  ∀ (i : Instr) (s : State), Memory.wf s.mem = true →
    ∃ t, exec i s = .next t ∧ t.cartSize = s.cartSize ∧ t.inbox = s.inbox ∧
      (∀ r, t.reg r = (storedWord r i).getD (s.reg r)) ∧
      (∀ b o, t.byte b o = (storedByte s.cartSize b o i).getD (s.byte b o)) ∧
      ((∀ idx mo v, i ≠ .regWrite idx mo v) → t.regs = s.regs) ∧
      ((∀ addr data, i ≠ .memWrite addr data) → t.mem = s.mem)

/-- Rule R111: no operation stops the machine, and after any list of them, whatever they answered, the next
record is taken as usual; an invariant state stays one. -/
def Obligations.NoOperationStopsTheMachine : Prop :=
  ∀ (ops : List Instr) (s : State), ∃ t, runOps ops s = .next t ∧ t.inbox = s.inbox ∧
    (s.Inv → t.Inv)

/-- Rule R25: an operation's answer and effect are a function of its operands, the slots and the buffers:
what was issued or answered before, or is still to be issued, makes no difference. -/
def Obligations.NoHiddenState : Prop :=
  ∀ (i : Instr) (s s' : State), s.regs = s'.regs → s.mem = s'.mem → s.cartSize = s'.cartSize →
    ∃ t t', exec i s = .next t ∧ exec i s' = .next t' ∧ t.out = t'.out ∧ t.regs = t'.regs ∧
      t.mem = t'.mem

/-- Rules R6, R79 and R101: a register operation neither reads nor writes a buffer, and a memory operation
neither reads nor writes a slot. -/
def Obligations.ComponentsDoNotTouchEachOther : Prop :=
  (∀ (s s' : State) idx mo v, s.regs = s'.regs → ∀ i, i = .regRead idx mo ∨ i = .regWrite idx mo v →
    ∃ t t', exec i s = .next t ∧ exec i s' = .next t' ∧ t.out = t'.out ∧ t.regs = t'.regs ∧
      t.mem = s.mem ∧ t'.mem = s'.mem) ∧
  (∀ (s s' : State) addr n data, s.mem = s'.mem → s.cartSize = s'.cartSize →
    ∀ i, i = .memTranslate addr n ∨ i = .memRead addr n ∨ i = .memWrite addr data →
    ∃ t t', exec i s = .next t ∧ exec i s' = .next t' ∧ t.out = t'.out ∧ t.mem = t'.mem ∧
      t.regs = s.regs ∧ t'.regs = s'.regs)

/-- Rule R112: the codes of the outcomes, and that an operation's outcome, from its causes, is the one its
answer shows; an outcome other than `OK` changes no slot and no byte. -/
def Obligations.OutcomesMatchAnswers : Prop :=
  [OutcomeCode.ok, .regAbsent, .regIgnored, .memNoMapping, .memNoData, .memWriteFailed].map
    OutcomeCode.code = [0, 1, 2, 3, 4, 5] ∧
  ∀ (i : Instr) (s : State), ∃ t r, exec i s = .next t ∧ t.out = some r ∧
    (outcomeOf s.cartSize i ≠ .ok → t = { s with out := some r }) ∧
    (outcomeOf s.cartSize i = .regAbsent ↔ r = .word none) ∧
    (outcomeOf s.cartSize i = .memNoMapping ↔ r = .mapping none) ∧
    (outcomeOf s.cartSize i = .memNoData ↔ r = .bytes none) ∧
    (outcomeOf s.cartSize i = .memWriteFailed ↔ r = .stored false) ∧
    (outcomeOf s.cartSize i = .regIgnored ↔
      ∃ idx mo v, i = .regWrite idx mo v ∧ writtenSlot idx mo = none)

/-- Rule R51 (b): after any list of operations, a read answers the value of the most recent write that
resolved to the same slot, or what the slot held before them all. -/
def Obligations.RegisterReadsAnswerTheLatestWrite : Prop :=
  ∀ (ops : List Instr) (s : State) (i : Fin 18) (m : Mode),
    ∃ t, runOps (ops ++ [.regRead i (.typed m)]) s = .next t ∧
      t.out = some (.word (some (latestWord (slot i m) (s.reg (slot i m)) ops)))

/-- Rule R51 (a): after any list of operations, a read of a mapped span answers, for each byte, the byte of
the most recent write that covered it, by whatever window and of whatever size, or what it held before
them all. -/
def Obligations.MemoryReadsAnswerTheLatestWrite : Prop :=
  ∀ (ops : List Instr) (s : State) (addr : Addr) (n : Nat) (b : BufId) (off : Nat),
    Memory.wf s.mem = true → memTranslate s.cartSize addr n = some (b, off) →
    ∃ t l, runOps (ops ++ [.memRead addr n]) s = .next t ∧ t.out = some (.bytes (some l)) ∧
      l.length = n ∧
      ∀ j, j < n → l[j]? = some (latestByte s.cartSize b (off + j) (s.byte b (off + j)) ops)

/-- Rule R132: the writes that restore a saved state lead from any state of the invariant to the saved
registers and the saved memory. -/
def Obligations.SavedStateIsRestoredByWrites : Prop :=
  ∀ s saved : State, s.Inv → saved.Inv → s.cartSize = saved.cartSize →
    ∃ t, runOps (restoreOps saved) s = .next t ∧ t.regs = saved.regs ∧ t.mem = saved.mem ∧
      t.cartSize = saved.cartSize

/-- Rule R132: giving a BIOS image as the parameter, and writing it before execution begins, leave the same
registers and memory.  For an image shorter than the buffer this rests on the model's choice to hold zeros
past its end (log entry 4). -/
def Obligations.BiosImageByParameterOrByWrite : Prop :=
  ∀ c : Config, c.wf = true →
    ∃ t, runOps [.memWrite 0x00000000 c.biosInit] (State.boot { c with biosInit := [] }) = .next t ∧
      t.out = some (.stored true) ∧ t.regs = (State.boot c).regs ∧ t.mem = (State.boot c).mem

/-- Rule R47, the consumers' helper: the word views are little-endian sums of the bytes, and each view and
its byte list are inverse. -/
def Obligations.WordViewsAreLittleEndian : Prop :=
  (∀ b0 b1 : Byte, (le16 b0 b1).toNat = b0.toNat + 256 * b1.toNat ∧
    bytes16 (le16 b0 b1) = [b0, b1]) ∧
  (∀ b0 b1 b2 b3 : Byte, (le32 b0 b1 b2 b3).toNat =
      b0.toNat + 2 ^ 8 * b1.toNat + 2 ^ 16 * b2.toNat + 2 ^ 24 * b3.toNat ∧
    bytes32 (le32 b0 b1 b2 b3) = [b0, b1, b2, b3]) ∧
  (∀ v : BitVec 16, ∃ b0 b1, bytes16 v = [b0, b1] ∧ le16 b0 b1 = v) ∧
  (∀ v : Word, ∃ b0 b1 b2 b3, bytes32 v = [b0, b1, b2, b3] ∧ le32 b0 b1 b2 b3 = v)
end

