-- ==== Sys2Proof/Laws/State.lean ====
section
/-! SUPPORT. One lemma per field per update of the state, and what the small operations on it are. -/

namespace Sys2Proof.Machine

@[simp] theorem answer_regs (s : State) (r : Result) : (s.answer r).regs = s.regs := rfl
@[simp] theorem answer_mem (s : State) (r : Result) : (s.answer r).mem = s.mem := rfl
@[simp] theorem answer_cartSize (s : State) (r : Result) : (s.answer r).cartSize = s.cartSize := rfl
@[simp] theorem answer_inbox (s : State) (r : Result) : (s.answer r).inbox = s.inbox := rfl
@[simp] theorem answer_out (s : State) (r : Result) : (s.answer r).out = some r := rfl
@[simp] theorem answer_reg (s : State) (r : Result) (i : Fin 38) : (s.answer r).reg i = s.reg i := rfl
@[simp] theorem answer_byte (s : State) (r : Result) (b : BufId) (o : Nat) :
    (s.answer r).byte b o = s.byte b o := rfl
@[simp] theorem answer_inv (s : State) (r : Result) : (s.answer r).inv = s.inv := rfl

@[simp] theorem issue_regs (s : State) (ops : List Instr) : (s.issue ops).regs = s.regs := rfl
@[simp] theorem issue_mem (s : State) (ops : List Instr) : (s.issue ops).mem = s.mem := rfl
@[simp] theorem issue_cartSize (s : State) (ops : List Instr) :
    (s.issue ops).cartSize = s.cartSize := rfl
@[simp] theorem issue_inbox (s : State) (ops : List Instr) :
    (s.issue ops).inbox = ops.map encode ++ s.inbox := rfl
@[simp] theorem issue_out (s : State) (ops : List Instr) : (s.issue ops).out = s.out := rfl

@[simp] theorem withFetchWord_regs (s : State) (k w : Nat) :
    (s.withFetchWord k w).regs = s.regs := rfl
@[simp] theorem withFetchWord_mem (s : State) (k w : Nat) : (s.withFetchWord k w).mem = s.mem := rfl
@[simp] theorem withFetchWord_cartSize (s : State) (k w : Nat) :
    (s.withFetchWord k w).cartSize = s.cartSize := rfl
@[simp] theorem withFetchWord_inbox (s : State) (k w : Nat) :
    (s.withFetchWord k w).inbox = tableRecord k w :: s.inbox := rfl
@[simp] theorem withFetchWord_out (s : State) (k w : Nat) : (s.withFetchWord k w).out = s.out := rfl

/-- The five fields determine the state. -/
theorem State.eq_of_fields {s t : State} (hr : s.regs = t.regs) (hm : s.mem = t.mem)
    (hc : s.cartSize = t.cartSize) (hi : s.inbox = t.inbox) (ho : s.out = t.out) : s = t := by
  cases s; cases t; simp_all

/-- What `fetch` gives. -/
theorem fetch_cons {s : State} {r : Record} {rest : List Record} (h : s.inbox = r :: rest) :
    fetch s = some (r, { s with inbox := rest }) := by
  simp [fetch, h]

theorem fetch_nil {s : State} (h : s.inbox = []) : fetch s = none := by
  simp [fetch, h]

end Sys2Proof.Machine
end

