-- ==== Sys2Proof/Laws/Buffer.lean ====
section
/-! SUPPORT. The laws of one backing buffer and of the nine: a read after a write, what a write leaves
alone, and that every operation keeps the canonical form and the buffer's bound. -/

namespace Sys2Proof.Machine

/-! ### The canonical form -/

theorem Buffer.wfFrom_mono {lo lo' : Nat} {b : Buffer} (hle : lo' ≤ lo)
    (h : Buffer.wfFrom lo b = true) : Buffer.wfFrom lo' b = true := by
  cases b with
  | nil => rfl
  | cons c t =>
    simp only [Buffer.wfFrom, Bool.and_eq_true, decide_eq_true_eq] at h ⊢
    exact ⟨⟨by omega, h.1.2⟩, h.2⟩

theorem Buffer.wfFrom_tail {lo k : Nat} {v : Byte} {t : Buffer}
    (h : Buffer.wfFrom lo ((k, v) :: t) = true) :
    lo ≤ k ∧ v ≠ unlistedByte ∧ Buffer.wfFrom (k + 1) t = true := by
  simp only [Buffer.wfFrom, Bool.and_eq_true, decide_eq_true_eq] at h
  exact ⟨h.1.1, h.1.2, h.2⟩

/-- An offset below every cell reads as unlisted. -/
theorem Buffer.read_of_lt_from {lo o : Nat} {b : Buffer} (h : Buffer.wfFrom lo b = true)
    (ho : o < lo) : Buffer.read b o = unlistedByte := by
  induction b generalizing lo with
  | nil => rfl
  | cons c t ih =>
    obtain ⟨k, v⟩ := c
    obtain ⟨h1, -, h3⟩ := Buffer.wfFrom_tail h
    have hne : ¬ k = o := by omega
    simp only [Buffer.read, if_neg hne]
    exact ih h3 (by omega)

/-- A write keeps the canonical form. -/
theorem Buffer.write_wfFrom {lo o : Nat} {b : Buffer} {v : Byte} (hlo : lo ≤ o)
    (h : Buffer.wfFrom lo b = true) : Buffer.wfFrom lo (Buffer.write b o v) = true := by
  induction b generalizing lo with
  | nil =>
    by_cases hv : v = unlistedByte
    · simp [Buffer.write, hv, Buffer.wfFrom]
    · simp [Buffer.write, hv, Buffer.wfFrom, hlo]
  | cons c t ih =>
    obtain ⟨k, x⟩ := c
    obtain ⟨h1, h2, h3⟩ := Buffer.wfFrom_tail h
    by_cases hv : v = unlistedByte <;> by_cases hlt : o < k <;> by_cases heq : o = k <;>
      simp only [Buffer.write, hv, hlt, heq, if_true, if_false, lt_irrefl] <;> first
        | exact h
        | exact Buffer.wfFrom_mono (by omega) h3
        | (simp only [Buffer.wfFrom, Bool.and_eq_true, decide_eq_true_eq]
           refine ⟨⟨by omega, by assumption⟩, ?_⟩
           first
             | exact ih (by omega) h3
             | exact h3
             | exact ⟨⟨by omega, h2⟩, h3⟩)
        | (subst hv
           simp only [Buffer.wfFrom, Bool.and_eq_true, decide_eq_true_eq]
           exact ⟨⟨by omega, h2⟩, ih (by omega) h3⟩)

/-- A read after a write: the stored byte at its offset, the old byte at every other one. -/
theorem Buffer.read_write {lo : Nat} {b : Buffer} (h : Buffer.wfFrom lo b = true) (o o' : Nat)
    (v : Byte) : Buffer.read (Buffer.write b o v) o' = if o' = o then v else Buffer.read b o' := by
  induction b generalizing lo with
  | nil =>
    by_cases hv : v = unlistedByte
    · simp [Buffer.write, hv, Buffer.read]
    · by_cases ho : o' = o
      · simp [Buffer.write, hv, Buffer.read, ho]
      · have : ¬ o = o' := fun e => ho e.symm
        simp [Buffer.write, hv, Buffer.read, ho, this]
  | cons c t ih =>
    obtain ⟨k, x⟩ := c
    obtain ⟨h1, h2, h3⟩ := Buffer.wfFrom_tail h
    unfold Buffer.write
    by_cases hlt : o < k
    · by_cases ho : o' = o
      · subst ho
        have hne : ¬ k = o' := by omega
        by_cases hv : v = unlistedByte
        · simp [hlt, hv, Buffer.read, hne, Buffer.read_of_lt_from h3 (show o' < k + 1 by omega)]
        · simp [hlt, hv, Buffer.read]
      · have hne : ¬ o = o' := fun e => ho e.symm
        by_cases hv : v = unlistedByte <;> simp [hlt, hv, Buffer.read, ho, hne]
    · by_cases heq : o = k
      · subst heq
        by_cases ho : o' = o
        · subst ho
          by_cases hv : v = unlistedByte
          · simp [hv, Buffer.read_of_lt_from h3 (show o' < o' + 1 by omega)]
          · simp [hv, Buffer.read]
        · have hne : ¬ o = o' := fun e => ho e.symm
          by_cases hv : v = unlistedByte <;> simp [hv, Buffer.read, ho, hne]
      · simp only [hlt, heq, if_false, Buffer.read]
        by_cases hk : k = o'
        · have : ¬ o' = o := by omega
          simp [hk, this]
        · simp [hk, ih h3]

/-- Two buffers in the canonical form that read alike are the same data. -/
theorem Buffer.ext_of_wfFrom {lo lo' : Nat} {b c : Buffer} (hb : Buffer.wfFrom lo b = true)
    (hc : Buffer.wfFrom lo' c = true) (h : ∀ o, Buffer.read b o = Buffer.read c o) : b = c := by
  induction b generalizing lo lo' c with
  | nil =>
    cases c with
    | nil => rfl
    | cons d u =>
      obtain ⟨k, v⟩ := d
      have := h k
      simp [Buffer.read] at this
      exact absurd this.symm (Buffer.wfFrom_tail hc).2.1
  | cons d t ih =>
    obtain ⟨k, v⟩ := d
    obtain ⟨b1, b2, b3⟩ := Buffer.wfFrom_tail hb
    cases c with
    | nil =>
      have := h k
      simp [Buffer.read] at this
      exact absurd this b2
    | cons e u =>
      obtain ⟨k', v'⟩ := e
      obtain ⟨c1, c2, c3⟩ := Buffer.wfFrom_tail hc
      have hk : k = k' := by
        by_contra hne
        rcases Nat.lt_or_gt_of_ne hne with hlt | hgt
        · have hr := h k
          have hne' : ¬ k' = k := by omega
          simp only [Buffer.read, if_true, if_neg hne',
            Buffer.read_of_lt_from c3 (show k < k' + 1 by omega)] at hr
          exact b2 hr
        · have hr := h k'
          have hne' : ¬ k = k' := by omega
          simp only [Buffer.read, if_true, if_neg hne',
            Buffer.read_of_lt_from b3 (show k' < k + 1 by omega)] at hr
          exact c2 hr.symm
      subst hk
      have hv : v = v' := by simpa [Buffer.read] using h k
      subst hv
      have ht : t = u := by
        refine ih b3 c3 fun o => ?_
        by_cases ho : k = o
        · subst ho
          rw [Buffer.read_of_lt_from b3 (by omega), Buffer.read_of_lt_from c3 (by omega)]
        · simpa [Buffer.read, ho] using h o
      rw [ht]

theorem Buffer.below_iff (size : Nat) (b : Buffer) :
    Buffer.below size b = true ↔ ∀ c ∈ b, c.1 < size := by simp [Buffer.below]

/-- An offset past every cell reads as an unlisted one. -/
theorem Buffer.read_of_below {size o : Nat} {b : Buffer} (h : Buffer.below size b = true)
    (ho : size ≤ o) : Buffer.read b o = unlistedByte := by
  induction b with
  | nil => rfl
  | cons c t ih =>
    obtain ⟨k, v⟩ := c
    rw [Buffer.below_iff] at h
    have hk : k ≠ o := by have := h (k, v) (List.mem_cons_self ..); simp only at this; omega
    rw [Buffer.read, if_neg hk]
    exact ih ((Buffer.below_iff _ _).2 fun d hd => h d (List.mem_cons_of_mem _ hd))

/-- A write adds at most the written cell. -/
theorem Buffer.mem_write {b : Buffer} {o : Nat} {v : Byte} {c : Host.Cell}
    (h : c ∈ Buffer.write b o v) : c = (o, v) ∨ c ∈ b := by
  induction b with
  | nil =>
    unfold Buffer.write at h
    split at h <;> simp_all
  | cons d t ih =>
    unfold Buffer.write at h
    split_ifs at h <;> simp only [List.mem_cons] at h ⊢ <;> tauto

/-- A write inside the buffer keeps every cell inside it. -/
theorem Buffer.write_below {size o : Nat} {b : Buffer} {v : Byte} (ho : o < size)
    (h : Buffer.below size b = true) : Buffer.below size (Buffer.write b o v) = true := by
  rw [Buffer.below_iff] at h ⊢
  intro c hc
  rcases Buffer.mem_write hc with rfl | hc
  · exact ho
  · exact h c hc

/-! ### Byte sequences -/

@[simp] theorem Buffer.readBytes_length (b : Buffer) (o n : Nat) :
    (Buffer.readBytes b o n).length = n := by simp [Buffer.readBytes]

theorem Buffer.readBytes_getElem? (b : Buffer) (o n j : Nat) :
    (Buffer.readBytes b o n)[j]? = if j < n then some (Buffer.read b (o + j)) else none := by
  by_cases h : j < n <;> simp [Buffer.readBytes, h]

/-- Two spans with the same bytes read alike. -/
theorem Buffer.readBytes_congr {b c : Buffer} {o o' n : Nat}
    (h : ∀ j < n, Buffer.read b (o + j) = Buffer.read c (o' + j)) :
    Buffer.readBytes b o n = Buffer.readBytes c o' n := by
  apply List.ext_getElem?
  intro j
  simp only [Buffer.readBytes_getElem?]
  split
  · rw [h j (by assumption)]
  · rfl

theorem Buffer.writeBytes_wfFrom {lo o : Nat} {b : Buffer} (bs : List Byte) (hlo : lo ≤ o)
    (h : Buffer.wfFrom lo b = true) : Buffer.wfFrom lo (Buffer.writeBytes b o bs) = true := by
  induction bs generalizing b o with
  | nil => exact h
  | cons v vs ih => exact ih (by omega) (Buffer.write_wfFrom hlo h)

theorem Buffer.writeBytes_below {size o : Nat} {b : Buffer} (bs : List Byte)
    (ho : o + bs.length ≤ size) (h : Buffer.below size b = true) :
    Buffer.below size (Buffer.writeBytes b o bs) = true := by
  induction bs generalizing b o with
  | nil => exact h
  | cons v vs ih =>
    simp only [List.length_cons] at ho
    exact ih (by omega) (Buffer.write_below (by omega) h)

/-- A read after a write of a byte sequence: the sequence's byte inside the span, the old byte outside
it. -/
theorem Buffer.read_writeBytes {lo : Nat} {b : Buffer} (h : Buffer.wfFrom lo b = true)
    (bs : List Byte) {o : Nat} (hlo : lo ≤ o) (o' : Nat) :
    Buffer.read (Buffer.writeBytes b o bs) o' =
      if o ≤ o' then (bs[o' - o]?).getD (Buffer.read b o') else Buffer.read b o' := by
  induction bs generalizing b o with
  | nil => simp [Buffer.writeBytes]
  | cons v vs ih =>
    rw [Buffer.writeBytes, ih (Buffer.write_wfFrom hlo h) (by omega), Buffer.read_write h]
    by_cases h1 : o' = o
    · subst h1
      simp
    · by_cases h2 : o ≤ o'
      · have h3 : o + 1 ≤ o' := by omega
        have h4 : o' - o = (o' - (o + 1)) + 1 := by omega
        simp [h1, h2, h3, h4]
      · have h3 : ¬ o + 1 ≤ o' := by omega
        simp [h1, h2, h3]

/-- Reading back a written span gives the written bytes. -/
theorem Buffer.readBytes_writeBytes {lo : Nat} {b : Buffer} (h : Buffer.wfFrom lo b = true)
    (bs : List Byte) {o : Nat} (hlo : lo ≤ o) :
    Buffer.readBytes (Buffer.writeBytes b o bs) o bs.length = bs := by
  apply List.ext_getElem?
  intro j
  rw [Buffer.readBytes_getElem?]
  split
  · rename_i hj
    rw [Buffer.read_writeBytes h bs hlo]
    simp [hj]
  · rename_i hj
    simp [Nat.le_of_not_lt hj]

/-! ### The nine buffers -/

theorem BufId.ordinal_injective {b c : BufId} (h : b.ordinal = c.ordinal) : b = c := by
  cases b <;> cases c <;> first | rfl | exact absurd h (by decide)

@[simp] theorem mem_allBufs (b : BufId) : b ∈ allBufs := by cases b <;> decide

@[simp] theorem Memory.buf_setBuf_self (m : Memory) (b : BufId) (c : Buffer) :
    Memory.buf (Memory.setBuf m b c) b = c := by
  simp [Memory.buf, Memory.setBuf]

theorem Memory.buf_setBuf_of_ne (m : Memory) {b b' : BufId} (c : Buffer) (h : b' ≠ b) :
    Memory.buf (Memory.setBuf m b c) b' = Memory.buf m b' := by
  have hne : b.ordinal.val ≠ b'.ordinal.val :=
    fun e => h (BufId.ordinal_injective (Fin.ext e)).symm
  have := Vector.getElem_set_ne (xs := m) (x := c) b.ordinal.isLt b'.ordinal.isLt hne
  simpa [Memory.buf, Memory.setBuf] using this

theorem Memory.buf_setBuf (m : Memory) (b b' : BufId) (c : Buffer) :
    Memory.buf (Memory.setBuf m b c) b' = if b' = b then c else Memory.buf m b' := by
  split
  · subst_vars; simp
  · exact Memory.buf_setBuf_of_ne m c (by assumption)

@[simp] theorem Memory.buf_zero (b : BufId) : Memory.buf Memory.zero b = [] := by
  cases b <;> rfl

/-- Every ordinal is a buffer's. -/
theorem BufId.exists_ordinal (i : Fin 9) : ∃ b : BufId, b.ordinal = i := by
  have h : ∀ i : Fin 9, ∃ b ∈ allBufs, b.ordinal = i := by decide
  obtain ⟨b, -, hb⟩ := h i
  exact ⟨b, hb⟩

/-- The nine buffers determine the memory. -/
theorem Memory.ext_buf {m m' : Memory} (h : ∀ b, Memory.buf m b = Memory.buf m' b) : m = m' := by
  apply Vector.ext
  intro i hi
  obtain ⟨b, hb⟩ := BufId.exists_ordinal ⟨i, hi⟩
  have := h b
  simpa [Memory.buf, hb] using this

theorem Memory.wf_iff (m : Memory) :
    Memory.wf m = true ↔ ∀ b, Buffer.wfFrom 0 (Memory.buf m b) = true := by
  simp [Memory.wf, List.all_eq_true]

theorem Memory.inBounds_iff (cartSize : Nat) (m : Memory) :
    Memory.inBounds cartSize m = true ↔
      ∀ b, Buffer.below (bufSize cartSize b) (Memory.buf m b) = true := by
  simp [Memory.inBounds, List.all_eq_true]

/-- Two memories in the canonical form that read alike are the same data. -/
theorem Memory.ext_of_wf {m m' : Memory} (h : Memory.wf m = true) (h' : Memory.wf m' = true)
    (hr : ∀ b o, Buffer.read (Memory.buf m b) o = Buffer.read (Memory.buf m' b) o) : m = m' :=
  Memory.ext_buf fun b =>
    Buffer.ext_of_wfFrom ((Memory.wf_iff m).1 h b) ((Memory.wf_iff m').1 h' b) (hr b)

/-- Replacing one buffer by one in the canonical form keeps the form. -/
theorem Memory.setBuf_wf {m : Memory} {b : BufId} {c : Buffer} (h : Memory.wf m = true)
    (hc : Buffer.wfFrom 0 c = true) : Memory.wf (Memory.setBuf m b c) = true := by
  rw [Memory.wf_iff] at h ⊢
  intro b'
  rw [Memory.buf_setBuf]
  split
  · exact hc
  · exact h b'

theorem Memory.setBuf_inBounds {cartSize : Nat} {m : Memory} {b : BufId} {c : Buffer}
    (h : Memory.inBounds cartSize m = true) (hc : Buffer.below (bufSize cartSize b) c = true) :
    Memory.inBounds cartSize (Memory.setBuf m b c) = true := by
  rw [Memory.inBounds_iff] at h ⊢
  intro b'
  rw [Memory.buf_setBuf]
  split
  · subst_vars; exact hc
  · exact h b'

end Sys2Proof.Machine
end

