-- ==== Sys2Proof/Laws/Registers.lean ====
section
/-! SUPPORT. The laws of mode patterns, the slot map and the register storage. -/

namespace Sys2Proof

/-! ### Mode patterns -/

@[simp] theorem modeOfBits?_modeEncode (m : Mode) : modeOfBits? (modeEncode m) = some m := by
  cases m <;> decide

/-- The strict reading recognizes exactly the patterns of the seven modes. -/
theorem modeOfBits?_eq_some {bits : Mode5} {m : Mode} :
    modeOfBits? bits = some m ↔ bits = modeEncode m := by
  constructor
  · intro h
    have := List.find?_some h
    simpa using (beq_iff_eq.1 this).symm
  · rintro rfl
    exact modeOfBits?_modeEncode m

theorem modeEncode_injective {m m' : Mode} (h : modeEncode m = modeEncode m') : m = m' := by
  have := modeOfBits?_modeEncode m
  rw [h, modeOfBits?_modeEncode] at this
  exact (Option.some.inj this).symm

@[simp] theorem ModeOperand.canonical_typed (m : Mode) :
    (ModeOperand.typed m).canonical = .typed m := by
  simp [ModeOperand.canonical, ModeOperand.ofPattern, ModeOperand.pattern]

@[simp] theorem ModeOperand.pattern_ofPattern (bits : Mode5) :
    (ModeOperand.ofPattern bits).pattern = bits := by
  unfold ModeOperand.ofPattern
  split
  · rename_i m h
    exact (modeOfBits?_eq_some.1 h).symm
  · rfl

namespace Machine

@[simp] theorem modeDecode_modeEncode (m : Mode) : modeDecode (modeEncode m) = m := by
  cases m <;> decide

@[simp] theorem modeOperandMode?_typed (m : Mode) : modeOperandMode? (.typed m) = some m := rfl
@[simp] theorem modeOperandMode?_raw (bits : Mode5) :
    modeOperandMode? (.raw bits) = modeOfBits? bits := rfl

/-- The pattern a mode operand presents determines the mode it names. -/
theorem modeOperandMode?_eq_pattern (mo : ModeOperand) :
    modeOperandMode? mo = modeOfBits? mo.pattern := by
  cases mo <;> simp [ModeOperand.pattern]

@[simp] theorem modeOperandMode?_canonical (mo : ModeOperand) :
    modeOperandMode? mo.canonical = modeOperandMode? mo := by
  rw [modeOperandMode?_eq_pattern, modeOperandMode?_eq_pattern, ModeOperand.canonical,
    ModeOperand.pattern_ofPattern]

/-! ### The slot map -/

theorem resolve_of_lt {idx : Nat} (h : idx < 18) (m : Mode) :
    resolve idx m = some (slot ⟨idx, h⟩ m) := by simp [resolve, h]

theorem resolve_of_gt {idx : Nat} (h : 17 < idx) (m : Mode) : resolve idx m = none := by
  simp [resolve, show ¬ idx < 18 by omega]

@[simp] theorem resolve_fin (i : Fin 18) (m : Mode) : resolve i.val m = some (slot i m) :=
  resolve_of_lt i.isLt m

/-- `(slotAddress r)` reaches slot `r`. -/
theorem resolve_slotAddress (r : Fin 38) :
    resolve (slotAddress r).1 (slotAddress r).2 = some r := by
  revert r; decide

/-! ### Storage -/

@[simp] theorem readSlot_writeSlot_self (regs : RegFile) (r : Fin 38) (v : Word) :
    readSlot (writeSlot regs r v) r = v := by simp [readSlot, writeSlot]

theorem readSlot_writeSlot_of_ne (regs : RegFile) {r r' : Fin 38} (v : Word) (h : r' ≠ r) :
    readSlot (writeSlot regs r v) r' = readSlot regs r' := by
  have hne : r.val ≠ r'.val := fun e => h (Fin.ext e.symm)
  have := Vector.getElem_set_ne (xs := regs) (x := v) r.isLt r'.isLt hne
  simpa [readSlot, writeSlot] using this

theorem readSlot_writeSlot (regs : RegFile) (r r' : Fin 38) (v : Word) :
    readSlot (writeSlot regs r v) r' = if r' = r then v else readSlot regs r' := by
  split
  · subst_vars; simp
  · exact readSlot_writeSlot_of_ne regs v (by assumption)

/-- The 38 slots determine the register file. -/
theorem RegFile.ext_slots {regs regs' : RegFile}
    (h : ∀ r : Fin 38, readSlot regs r = readSlot regs' r) : regs = regs' := by
  apply Vector.ext
  intro i hi
  simpa [readSlot] using h ⟨i, hi⟩

/-! ### The operations -/

/-- What a read gives, from the mode the operand names and the slot the pair resolves to. -/
theorem regReadOp_eq (regs : RegFile) (idx : Nat) (mo : ModeOperand) :
    regReadOp regs idx mo =
      ((modeOperandMode? mo).bind fun m => (resolve idx m).map (readSlot regs)) := by
  cases mo with
  | typed m =>
    simp only [regReadOp, regRead, modeOperandMode?_typed, Option.bind_some]
    cases resolve idx m <;> rfl
  | raw bits =>
    simp only [regReadOp, regReadRaw, regRead, modeOperandMode?_raw]
    cases modeOfBits? bits with
    | none => rfl
    | some m => simp only [Option.bind_some]; cases resolve idx m <;> rfl

/-- What a write leaves in the storage, from the slot it resolves to. -/
theorem regWriteOp_eq (regs : RegFile) (idx : Nat) (mo : ModeOperand) (v : Word) :
    regWriteOp regs idx mo v =
      match (modeOperandMode? mo).bind fun m => resolve idx m with
      | none => regs
      | some r => writeSlot regs r v := by
  cases mo with
  | typed m =>
    cases h : resolve idx m <;>
      simp only [regWriteOp, regWrite, modeOperandMode?_typed, Option.bind_some, h]
  | raw bits =>
    cases hm : modeOfBits? bits with
    | none => simp only [regWriteOp, regWriteRaw, modeOperandMode?_raw, hm, Option.bind_none]
    | some m =>
      cases h : resolve idx m <;>
        simp only [regWriteOp, regWriteRaw, regWrite, modeOperandMode?_raw, hm, Option.bind_some, h]

@[simp] theorem regReadOp_canonical (regs : RegFile) (idx : Nat) (mo : ModeOperand) :
    regReadOp regs idx mo.canonical = regReadOp regs idx mo := by
  simp [regReadOp_eq]

@[simp] theorem regWriteOp_canonical (regs : RegFile) (idx : Nat) (mo : ModeOperand) (v : Word) :
    regWriteOp regs idx mo.canonical v = regWriteOp regs idx mo v := by
  simp [regWriteOp_eq]

/-- The word a slot holds after a write: the value where the write resolves to the slot, else what it
held. -/
theorem readSlot_regWriteOp (regs : RegFile) (idx : Nat) (mo : ModeOperand) (v : Word)
    (r : Fin 38) :
    readSlot (regWriteOp regs idx mo v) r =
      if writtenSlot idx mo = some r then v else readSlot regs r := by
  rw [regWriteOp_eq, writtenSlot]
  cases (modeOperandMode? mo).bind fun m => resolve idx m with
  | none => simp
  | some r' =>
    simp only [readSlot_writeSlot, Option.some.injEq]
    by_cases h : r' = r
    · simp [h]
    · rw [if_neg h, if_neg fun e => h e.symm]

end Machine

end Sys2Proof
end

