-- ==== Sys2Proof/Laws/Decode.lean ====
section
/-! SUPPORT. The laws of records: reading back what was written, number by number. -/

namespace Sys2Proof

@[simp] theorem wordOperand_toNat (op : BitVec 4) (w : Word) :
    wordOperand op w.toNat = .ok w := by
  simp [wordOperand, w.isLt]

@[simp] theorem bytesOperand_map_toNat (op : BitVec 4) (bs : List Byte) :
    bytesOperand op (bs.map BitVec.toNat) = .ok bs := by
  induction bs with
  | nil => rfl
  | cons b bs ih => simp [bytesOperand, b.isLt, ih]

@[simp] theorem patternOperand_toNat (bits : Mode5) : patternOperand bits.toNat = bits := by
  simp [patternOperand]

theorem wordOperand_eq_ok {op : BitVec 4} {x : Nat} {w : Word} (h : wordOperand op x = .ok w) :
    w.toNat = x := by
  unfold wordOperand at h
  split at h
  · cases h; simp; omega
  · cases h

theorem bytesOperand_eq_ok {op : BitVec 4} {xs : List Nat} {bs : List Byte}
    (h : bytesOperand op xs = .ok bs) : bs.map BitVec.toNat = xs := by
  induction xs generalizing bs with
  | nil => cases h; rfl
  | cons x xs ih =>
    unfold bytesOperand at h
    split at h
    · cases hx : bytesOperand op xs with
      | error e => simp [hx] at h
      | ok cs =>
        simp only [hx, Except.ok.injEq] at h
        subst h
        simp only [List.map_cons, ih hx, BitVec.toNat_ofNat, List.cons.injEq, and_true]
        omega
    · cases h

theorem patternOperand_of_lt {x : Nat} (h : x < 32) : (patternOperand x).toNat = x := by
  simp [patternOperand]; omega

theorem ModeOperand.canonical_ofPattern (bits : Mode5) :
    (ModeOperand.ofPattern bits).canonical = .ofPattern bits := by
  simp [ModeOperand.canonical]

/-- What a one-word record decodes to. -/
theorem decodePsr_eq_ok {op : BitVec 4} {mk : Word → Instr} {args : List Nat} {i : Instr}
    (h : decodePsr op mk args = .ok i) : ∃ w : Word, i = mk w ∧ args = [w.toNat] := by
  unfold decodePsr at h
  split at h
  · rename_i x
    cases hx : wordOperand op x with
    | error e => simp [hx, Except.map] at h
    | ok w =>
      simp only [hx, Except.map, Except.ok.injEq] at h
      exact ⟨w, h.symm, by rw [wordOperand_eq_ok hx]⟩
  · cases h

/-- What an address-and-size record decodes to. -/
theorem decodeSpan_eq_ok {op : BitVec 4} {mk : Addr → Nat → Instr} {args : List Nat} {i : Instr}
    (h : decodeSpan op mk args = .ok i) :
    ∃ (a : Addr) (n : Nat), i = mk a n ∧ args = [a.toNat, n] := by
  unfold decodeSpan at h
  split at h
  · rename_i x n
    cases hx : wordOperand op x with
    | error e => simp [hx, Except.map] at h
    | ok a =>
      simp only [hx, Except.map, Except.ok.injEq] at h
      exact ⟨a, n, h.symm, by rw [wordOperand_eq_ok hx]⟩
  · cases h

end Sys2Proof
end

