-- ==== Sys2Proof/Laws/Regions.lean ====
section
/-! SUPPORT. The laws of the region table and of the translation of a guest span: the entry that covers
a start address decides, and what a successful translation says. -/

namespace Sys2Proof.Machine

theorem Region.covers_iff (c : Nat) (r : Region) (a : Nat) :
    r.covers c a = true ↔ r.lo ≤ a ∧ a - r.lo < r.effLen c := by
  simp [Region.covers]

theorem Region.contains_iff (c : Nat) (r : Region) (a n : Nat) :
    r.contains c a n = true ↔ a - r.lo + n ≤ r.effLen c := by
  simp [Region.contains]

theorem Region.effLen_le_declared (c : Nat) (r : Region) : r.effLen c ≤ r.declared :=
  Nat.min_le_left _ _

theorem Region.effLen_le_bufSize (c : Nat) (r : Region) : r.effLen c ≤ bufSize c r.buf :=
  Nat.min_le_right _ _

/-- The declared ranges rise and do not meet (20_memory.md rule R35). -/
theorem regionTable_disjoint :
    regionTable.Pairwise fun r r' => r.lo + r.declared ≤ r'.lo := by decide

/-- In a table of disjoint entries, the entry that covers the start address decides the scan. -/
theorem scanRegions_of_covers {c a n : Nat} {l : List Region}
    (hd : l.Pairwise fun r r' => r.lo + r.declared ≤ r'.lo) {r : Region} (hr : r ∈ l)
    (hc : r.covers c a = true) :
    scanRegions c a n l = if r.contains c a n then some (r.buf, a - r.lo) else none := by
  induction l with
  | nil => cases hr
  | cons x xs ih =>
    rw [List.pairwise_cons] at hd
    rcases List.mem_cons.1 hr with rfl | hr'
    · simp [scanRegions, hc]
    · have hx : x.covers c a = false := by
        have h1 := hd.1 r hr'
        have h2 := (Region.covers_iff c r a).1 hc
        have h3 := Region.effLen_le_declared c x
        rw [Bool.eq_false_iff, Ne, Region.covers_iff]
        omega
      simp only [scanRegions, hx, Bool.false_eq_true, if_false]
      exact ih hd.2 hr'

theorem scanRegions_of_none {c a n : Nat} {l : List Region}
    (h : ∀ r ∈ l, r.covers c a = false) : scanRegions c a n l = none := by
  induction l with
  | nil => rfl
  | cons x xs ih =>
    simp only [scanRegions, h x (List.mem_cons_self ..), Bool.false_eq_true, if_false]
    exact ih fun r hr => h r (List.mem_cons_of_mem _ hr)

/-- The entry that covers the start address decides the translation. -/
theorem memTranslate_of_covers {c : Nat} {addr : Addr} (n : Nat) {r : Region}
    (hr : r ∈ regionTable) (hc : r.covers c addr.toNat = true) :
    memTranslate c addr n =
      if r.contains c addr.toNat n then some (r.buf, addr.toNat - r.lo) else none :=
  scanRegions_of_covers regionTable_disjoint hr hc

/-- With no entry that covers the start address there is no mapping, whatever the size. -/
theorem memTranslate_of_uncovered {c : Nat} {addr : Addr} (n : Nat)
    (h : ∀ r ∈ regionTable, r.covers c addr.toNat = false) : memTranslate c addr n = none :=
  scanRegions_of_none h

/-- What a mapping says: some entry covers the start address, holds the span, and gives the buffer and
the offset. -/
theorem memTranslate_eq_some {c : Nat} {addr : Addr} {n : Nat} {b : BufId} {off : Nat} :
    memTranslate c addr n = some (b, off) ↔
      ∃ r ∈ regionTable, r.covers c addr.toNat = true ∧ r.contains c addr.toNat n = true ∧
        b = r.buf ∧ off = addr.toNat - r.lo := by
  constructor
  · intro h
    by_cases hx : ∃ r ∈ regionTable, r.covers c addr.toNat = true
    · obtain ⟨r, hr, hc⟩ := hx
      rw [memTranslate_of_covers n hr hc] at h
      split at h
      · rename_i hn
        obtain ⟨rfl, rfl⟩ := Prod.mk.inj (Option.some.inj h)
        exact ⟨r, hr, hc, hn, rfl, rfl⟩
      · cases h
    · rw [memTranslate_of_uncovered n fun r hr => by
        by_contra hne
        exact hx ⟨r, hr, by simpa using hne⟩] at h
      cases h
  · rintro ⟨r, hr, hc, hn, rfl, rfl⟩
    rw [memTranslate_of_covers n hr hc, if_pos hn]

/-- A mapped span lies inside its buffer. -/
theorem memTranslate_inBounds {c : Nat} {addr : Addr} {n : Nat} {b : BufId} {off : Nat}
    (h : memTranslate c addr n = some (b, off)) : off + n ≤ bufSize c b := by
  obtain ⟨r, -, -, hn, rfl, rfl⟩ := memTranslate_eq_some.1 h
  exact le_trans ((Region.contains_iff ..).1 hn) (Region.effLen_le_bufSize c r)

/-- A byte inside a mapped span is mapped on its own, at its own offset. -/
theorem memTranslate_byte {c : Nat} {addr addr' : Addr} {n j : Nat} {b : BufId} {off : Nat}
    (h : memTranslate c addr n = some (b, off)) (hj : j < n)
    (ha : addr'.toNat = addr.toNat + j) : memTranslate c addr' 1 = some (b, off + j) := by
  obtain ⟨r, hr, hc, hn, rfl, rfl⟩ := memTranslate_eq_some.1 h
  rw [Region.covers_iff] at hc
  rw [Region.contains_iff] at hn
  refine memTranslate_eq_some.2 ⟨r, hr, ?_, ?_, rfl, by omega⟩
  · rw [Region.covers_iff]; omega
  · rw [Region.contains_iff]; omega

/-- `Valid` holds exactly where the translation succeeds. -/
theorem valid_eq_isSome (c : Nat) (addr : Addr) (n : Nat) :
    valid c addr n = (memTranslate c addr n).isSome := by
  rw [Bool.eq_iff_iff]
  constructor
  · intro h
    obtain ⟨r, hr, hx⟩ := List.any_eq_true.1 h
    rw [Bool.and_eq_true] at hx
    rw [memTranslate_of_covers n hr hx.1, if_pos hx.2]
    rfl
  · intro h
    obtain ⟨⟨b, off⟩, hx⟩ := Option.isSome_iff_exists.1 h
    obtain ⟨r, hr, hc, hn, -, -⟩ := memTranslate_eq_some.1 hx
    exact List.any_eq_true.2 ⟨r, hr, by rw [hc, hn]; rfl⟩

/-- A buffer's first guest address with its whole size is a mapped span. -/
theorem memTranslate_bufAddress {c : Nat} (hlo : 1 ≤ c) (hhi : c ≤ 0x02000000) (b : BufId) :
    memTranslate c (bufAddress b) (bufSize c b) = some (b, 0) := by
  have key : ∃ r ∈ regionTable, r.buf = b ∧ r.lo = (bufAddress b).toNat ∧
      (b ≠ .cart → r.declared = bufSize c b) ∧ (b = .cart → r.declared = 0x02000000) := by
    cases b <;> simp [regionTable, bufAddress, bufSize]
  obtain ⟨r, hr, hb, hlo', h1, h2⟩ := key
  have heff : r.effLen c = bufSize c b := by
    by_cases hcart : b = .cart
    · have := h2 hcart
      subst hb
      simp only [Region.effLen, this, hcart, bufSize]
      omega
    · simp [Region.effLen, hb, h1 hcart]
  have hpos : 0 < bufSize c b := by cases b <;> (simp only [bufSize]; omega)
  refine memTranslate_eq_some.2 ⟨r, hr, ?_, ?_, hb.symm, by omega⟩
  · rw [Region.covers_iff, heff]; omega
  · rw [Region.contains_iff, heff]; omega

/-! ### The memory operations, by the translation of their span -/

theorem memRead_of_some {c : Nat} {mem : Memory} {addr : Addr} {n : Nat} {b : BufId} {off : Nat}
    (h : memTranslate c addr n = some (b, off)) :
    memRead c mem addr n = some (Buffer.readBytes (Memory.buf mem b) off n) := by
  unfold memRead
  simp only [h]

theorem memRead_of_none {c : Nat} {mem : Memory} {addr : Addr} {n : Nat}
    (h : memTranslate c addr n = none) : memRead c mem addr n = none := by
  unfold memRead
  simp only [h]

theorem memWrite_of_some {c : Nat} {mem : Memory} {addr : Addr} {data : List Byte} {b : BufId}
    {off : Nat} (h : memTranslate c addr data.length = some (b, off)) :
    memWrite c mem addr data =
      Memory.setBuf mem b (Buffer.writeBytes (Memory.buf mem b) off data) := by
  unfold memWrite
  simp only [h]

theorem memWrite_of_none {c : Nat} {mem : Memory} {addr : Addr} {data : List Byte}
    (h : memTranslate c addr data.length = none) : memWrite c mem addr data = mem := by
  unfold memWrite
  simp only [h]

theorem memWriteOk_of_some {c : Nat} {addr : Addr} {data : List Byte} {p : BufId × Nat}
    (h : memTranslate c addr data.length = some p) : memWriteOk c addr data = true := by
  unfold memWriteOk
  simp only [h, Option.isSome_some]

theorem memWriteOk_of_none {c : Nat} {addr : Addr} {data : List Byte}
    (h : memTranslate c addr data.length = none) : memWriteOk c addr data = false := by
  unfold memWriteOk
  simp only [h, Option.isSome_none]

/-- Replacing a buffer by itself changes nothing. -/
@[simp] theorem Memory.setBuf_buf_self (m : Memory) (b : BufId) :
    Memory.setBuf m b (Memory.buf m b) = m := by
  apply Memory.ext_buf
  intro b'
  rw [Memory.buf_setBuf]
  split
  · subst_vars; rfl
  · rfl

/-- A memory write keeps the canonical form. -/
theorem memWrite_wf {c : Nat} {mem : Memory} (addr : Addr) (data : List Byte)
    (h : Memory.wf mem = true) : Memory.wf (memWrite c mem addr data) = true := by
  unfold memWrite
  split
  · exact h
  · exact Memory.setBuf_wf h
      (Buffer.writeBytes_wfFrom _ (Nat.zero_le _) ((Memory.wf_iff mem).1 h _))

/-- A memory write keeps every cell inside its buffer. -/
theorem memWrite_inBounds {c : Nat} {mem : Memory} (addr : Addr) (data : List Byte)
    (h : Memory.inBounds c mem = true) : Memory.inBounds c (memWrite c mem addr data) = true := by
  unfold memWrite
  split
  · exact h
  · rename_i b off ht
    exact Memory.setBuf_inBounds h
      (Buffer.writeBytes_below _ (memTranslate_inBounds ht) ((Memory.inBounds_iff c mem).1 h _))

/-- The byte at a buffer offset after a memory write: what the write stores there, else what it held. -/
theorem read_memWrite {c : Nat} {mem : Memory} (h : Memory.wf mem = true) (addr : Addr)
    (data : List Byte) (b : BufId) (o : Nat) :
    Buffer.read (Memory.buf (memWrite c mem addr data) b) o =
      (writtenByte c addr data b o).getD (Buffer.read (Memory.buf mem b) o) := by
  unfold memWrite writtenByte
  cases memTranslate c addr data.length with
  | none => rfl
  | some p =>
    obtain ⟨b', off⟩ := p
    simp only [Option.bind_some]
    by_cases hb : b = b'
    · subst hb
      rw [Memory.buf_setBuf_self,
        Buffer.read_writeBytes ((Memory.wf_iff mem).1 h b) data (Nat.zero_le _)]
      by_cases ho : off ≤ o <;> simp [ho]
    · rw [Memory.buf_setBuf_of_ne _ _ hb, if_neg fun e => hb e.1.symm]
      rfl

end Sys2Proof.Machine
end

