-- ==== Sys2Proof/Laws/Exec.lean ====
section
/-! SUPPORT. What one operation does to the state, said once: `exec` always answers a next state, and
that state differs from the old one only as these lemmas say. -/

namespace Sys2Proof.Machine

/-- The state an operation leads to. -/
def after (i : Instr) (s : State) : State :=
  match exec i s with
  | .next t => t
  | .fault _ => s
  | .refused _ => s

/-- No operation stops the machine (60_exceptions.md rule R111). -/
theorem exec_eq_next (i : Instr) (s : State) : exec i s = .next (after i s) := by
  cases i <;> rfl

@[simp] theorem after_regRead (idx : Nat) (mode : ModeOperand) (s : State) :
    after (.regRead idx mode) s = s.answer (.word (regReadOp s.regs idx mode)) := rfl
@[simp] theorem after_regWrite (idx : Nat) (mode : ModeOperand) (v : Word) (s : State) :
    after (.regWrite idx mode v) s =
      State.answer { s with regs := regWriteOp s.regs idx mode v } .written := rfl
@[simp] theorem after_modeDecode (bits : Mode5) (s : State) :
    after (.modeDecode bits) s = s.answer (.mode (modeDecode bits)) := rfl
@[simp] theorem after_psrN (w : Word) (s : State) :
    after (.psrN w) s = s.answer (.flag (psrN w)) := rfl
@[simp] theorem after_psrZ (w : Word) (s : State) :
    after (.psrZ w) s = s.answer (.flag (psrZ w)) := rfl
@[simp] theorem after_psrC (w : Word) (s : State) :
    after (.psrC w) s = s.answer (.flag (psrC w)) := rfl
@[simp] theorem after_psrV (w : Word) (s : State) :
    after (.psrV w) s = s.answer (.flag (psrV w)) := rfl
@[simp] theorem after_psrI (w : Word) (s : State) :
    after (.psrI w) s = s.answer (.flag (psrI w)) := rfl
@[simp] theorem after_psrF (w : Word) (s : State) :
    after (.psrF w) s = s.answer (.flag (psrF w)) := rfl
@[simp] theorem after_psrT (w : Word) (s : State) :
    after (.psrT w) s = s.answer (.flag (psrT w)) := rfl
@[simp] theorem after_psrMode (w : Word) (s : State) :
    after (.psrMode w) s = s.answer (.mode (psrMode w)) := rfl
@[simp] theorem after_memTranslate (a : Addr) (n : Nat) (s : State) :
    after (.memTranslate a n) s = s.answer (.mapping (memTranslate s.cartSize a n)) := rfl
@[simp] theorem after_memRead (a : Addr) (n : Nat) (s : State) :
    after (.memRead a n) s = s.answer (.bytes (memRead s.cartSize s.mem a n)) := rfl
@[simp] theorem after_memWrite (a : Addr) (d : List Byte) (s : State) :
    after (.memWrite a d) s =
      State.answer { s with mem := memWrite s.cartSize s.mem a d }
        (.stored (memWriteOk s.cartSize a d)) := rfl

/-- No operation changes the parameter `CART_SIZE`. -/
@[simp] theorem after_cartSize (i : Instr) (s : State) : (after i s).cartSize = s.cartSize := by
  cases i <;> rfl

/-- No operation changes what the agent is about to issue. -/
@[simp] theorem after_inbox (i : Instr) (s : State) : (after i s).inbox = s.inbox := by
  cases i <;> rfl

/-- Taking a record from the inbox changes nothing an operation does. -/
theorem after_withInbox (i : Instr) (s : State) (rs : List Record) :
    after i { s with inbox := rs } = { after i s with inbox := rs } := by
  cases i <;> rfl

/-- The word a slot holds after an operation: what the operation stores in it, else what it held. -/
theorem after_reg (i : Instr) (s : State) (r : Fin 38) :
    (after i s).reg r = (storedWord r i).getD (s.reg r) := by
  cases i with
  | regWrite idx mode v =>
    have h := readSlot_regWriteOp s.regs idx mode v r
    by_cases hw : writtenSlot idx mode = some r
    · simpa [State.reg, storedWord, hw] using h
    · simpa [State.reg, storedWord, hw] using h
  | _ => rfl

/-- The byte a buffer offset holds after an operation: what the operation stores there, else what it
held. -/
theorem after_byte (i : Instr) {s : State} (h : Memory.wf s.mem = true) (b : BufId) (o : Nat) :
    (after i s).byte b o = (storedByte s.cartSize b o i).getD (s.byte b o) := by
  cases i with
  | memWrite a d => exact read_memWrite h a d b o
  | _ => rfl

/-- Every operation keeps memory in its canonical form. -/
theorem after_wf (i : Instr) {s : State} (h : Memory.wf s.mem = true) :
    Memory.wf (after i s).mem = true := by
  cases i with
  | memWrite a d => exact memWrite_wf a d h
  | _ => exact h

/-- Every operation keeps every cell inside its buffer. -/
theorem after_inBounds (i : Instr) {s : State} (h : Memory.inBounds s.cartSize s.mem = true) :
    Memory.inBounds (after i s).cartSize (after i s).mem = true := by
  rw [after_cartSize]
  cases i with
  | memWrite a d => exact memWrite_inBounds a d h
  | _ => exact h

theorem State.inv_iff (s : State) :
    s.Inv ↔ 1 ≤ s.cartSize ∧ s.cartSize ≤ 0x02000000 ∧ Memory.wf s.mem = true ∧
      Memory.inBounds s.cartSize s.mem = true := by
  simp [State.Inv, State.inv, and_assoc]

/-! ### Steps and runs -/

/-- The inversion of a step: nothing was issued, or the record at the head named an operation. -/
theorem step_eq_next {s t : State} (h : step s = .next t) :
    (s.inbox = [] ∧ t = s) ∨
      ∃ r rest i, s.inbox = r :: rest ∧ decode r = .ok i ∧ t = after i { s with inbox := rest } := by
  unfold step at h
  cases hi : s.inbox with
  | nil =>
    rw [fetch_nil hi] at h
    cases h
    exact .inl ⟨rfl, rfl⟩
  | cons r rest =>
    rw [fetch_cons hi] at h
    cases hd : decode r with
    | ok i =>
      simp only [hd, exec_eq_next] at h
      cases h
      exact .inr ⟨r, rest, i, rfl, hd, rfl⟩
    | error e => simp [hd] at h

/-- A step whose next record names an operation runs it. -/
theorem step_of_decode {s : State} {r : Record} {rest : List Record} {i : Instr}
    (hi : s.inbox = r :: rest) (hd : decode r = .ok i) :
    step s = exec i { s with inbox := rest } := by
  unfold step
  rw [fetch_cons hi]
  simp only [hd]

/-- A step whose next record names no operation is refused. -/
theorem step_of_error {s : State} {r : Record} {rest : List Record} {e : DecodeError}
    (hi : s.inbox = r :: rest) (hd : decode r = .error e) :
    step s = .refused (.namesNoOperation e) := by
  unfold step
  rw [fetch_cons hi]
  simp only [hd]

/-- A step with nothing issued changes nothing. -/
theorem step_of_nil {s : State} (hi : s.inbox = []) : step s = .next s := by
  unfold step
  rw [fetch_nil hi]
  rfl

/-- A run of any machine goes on from the state its first step leads to. -/
theorem run_of_step_of {M : Host.Core} {s t : M.State} (k : Nat) (h : M.step s = .next t) :
    M.run (k + 1) s = M.run k t := by
  rw [Host.Core.run, h]

/-- A run goes on from the state its first step leads to. -/
theorem run_of_step {s t : State} (k : Nat) (h : step s = .next t) :
    Host.Core.run Sys2Proof.core (k + 1) s = Host.Core.run Sys2Proof.core k t :=
  run_of_step_of (M := Sys2Proof.core) k h

/-- Taking the first issued operation leaves the rest issued, whatever the operation did. -/
theorem after_issue_cons (i : Instr) (ops : List Instr) (s : State) :
    after i { s.issue (i :: ops) with inbox := ops.map encode ++ s.inbox } =
      (after i s).issue ops := by
  refine (after_withInbox i s _).trans ?_
  simp [State.issue]

end Sys2Proof.Machine
end

