-- ==== Sys2Proof/Laws/PerInstr.lean ====
section
/-! SUPPORT. Statements for every operation as syntax, one lemma per constructor. -/

namespace Sys2Proof.Laws.RecordShape

/-- The record of an operation has an assigned ordinal, at least the operands rule R72 lists for it, and
mode patterns of five bits. -/
def Statement (i : Instr) : Prop :=
  (encode i).op.toNat ≤ 13 ∧ operandCount (encode i).op ≤ (encode i).args.length ∧
    (encode i).patternsFit = true

/-- A five-bit pattern is below 32. -/
theorem pattern_lt (bits : Mode5) : bits.toNat < 32 := bits.isLt

theorem regRead (idx : Nat) (mode : ModeOperand) : Statement (.regRead idx mode) :=
  ⟨by simp [encode], by simp [encode, operandCount],
    by simpa [encode, Record.patternsFit] using pattern_lt mode.pattern⟩

theorem regWrite (idx : Nat) (mode : ModeOperand) (value : Word) :
    Statement (.regWrite idx mode value) :=
  ⟨by simp [encode], by simp [encode, operandCount],
    by simpa [encode, Record.patternsFit] using pattern_lt mode.pattern⟩

theorem modeDecode (bits : Mode5) : Statement (.modeDecode bits) :=
  ⟨by simp [encode], by simp [encode, operandCount],
    by simpa [encode, Record.patternsFit] using pattern_lt bits⟩

theorem psrN (w : Word) : Statement (.psrN w) :=
  ⟨by simp [encode], by simp [encode, operandCount], rfl⟩

theorem psrZ (w : Word) : Statement (.psrZ w) :=
  ⟨by simp [encode], by simp [encode, operandCount], rfl⟩

theorem psrC (w : Word) : Statement (.psrC w) :=
  ⟨by simp [encode], by simp [encode, operandCount], rfl⟩

theorem psrV (w : Word) : Statement (.psrV w) :=
  ⟨by simp [encode], by simp [encode, operandCount], rfl⟩

theorem psrI (w : Word) : Statement (.psrI w) :=
  ⟨by simp [encode], by simp [encode, operandCount], rfl⟩

theorem psrF (w : Word) : Statement (.psrF w) :=
  ⟨by simp [encode], by simp [encode, operandCount], rfl⟩

theorem psrT (w : Word) : Statement (.psrT w) :=
  ⟨by simp [encode], by simp [encode, operandCount], rfl⟩

theorem psrMode (w : Word) : Statement (.psrMode w) :=
  ⟨by simp [encode], by simp [encode, operandCount], rfl⟩

theorem memTranslate (addr : Addr) (n : Nat) : Statement (.memTranslate addr n) :=
  ⟨by simp [encode], by simp [encode, operandCount], rfl⟩

theorem memRead (addr : Addr) (n : Nat) : Statement (.memRead addr n) :=
  ⟨by simp [encode], by simp [encode, operandCount], rfl⟩

theorem memWrite (addr : Addr) (data : List Byte) : Statement (.memWrite addr data) :=
  ⟨by simp [encode], by simp [encode, operandCount], rfl⟩

end Sys2Proof.Laws.RecordShape
end

