-- ==== Sys2Proof/Tests/Slice0.lean ====
section
/-! SUPPORT. Tests of single steps, the expected results taken from 95_test_vectors.md, and the witnesses
of the statements: for each clause with hypotheses, operands and a state that meet them. -/

namespace Sys2Proof.Tests

open Sys2Proof Sys2Proof.Machine

/-! ### Helpers -/

/-- What an outcome shows at the interface. -/
def outOf : Host.Outcome State Fault Refusal → Option Result
  | .next t => t.out
  | .fault _ => none
  | .refused _ => none

/-- A slot of the next state. -/
def regOf (r : Fin 38) : Host.Outcome State Fault Refusal → Option Word
  | .next t => some (t.reg r)
  | .fault _ => none
  | .refused _ => none

/-- Bytes of a buffer of the next state. -/
def bytesOf (b : BufId) (o n : Nat) : Host.Outcome State Fault Refusal → Option (List Byte)
  | .next t => some (Buffer.readBytes (Memory.buf t.mem b) o n)
  | .fault _ => none
  | .refused _ => none

/-- The reason of a refusal. -/
def refusalOf : Host.Outcome State Fault Refusal → Option Refusal
  | .next _ => none
  | .fault _ => none
  | .refused r => some r

/-- The machine after reset with one slot set. -/
def withReg (r : Fin 38) (v : Word) : State :=
  { State.reset with regs := writeSlot State.reset.regs r v }

/-- The machine after reset with bytes stored in one buffer. -/
def withBytes (b : BufId) (o : Nat) (bs : List Byte) : State :=
  { State.reset with mem := Memory.setBuf State.reset.mem b (Buffer.writeBytes [] o bs) }

/-- The parameters with the largest cartridge (95_test_vectors.md section 2.5, last table). -/
def fullCart : Config := { cartSize := 0x02000000 }

/-- The record of an operation read back. -/
def decoded (op : BitVec 4) (args : List Nat) : Option Instr :=
  match decode ⟨op, args⟩ with
  | .ok i => some i
  | .error _ => none

/-- Why a record names no operation. -/
def undecoded (op : BitVec 4) (args : List Nat) : Option DecodeError :=
  match decode ⟨op, args⟩ with
  | .ok _ => none
  | .error e => some e

/-! ### WellFormed: each check refuses a term (00_scope.md rule R8 (d), (e)) -/

theorem test_wf_regRead :
    (Instr.regRead 255 (.typed .user)).wellFormed Config.default = true ∧
      (Instr.regRead 256 (.typed .user)).wellFormed Config.default = false := by decide

theorem test_wf_regWrite :
    (Instr.regWrite 255 (.raw 0) 0).wellFormed Config.default = true ∧
      (Instr.regWrite 256 (.raw 0) 0).wellFormed Config.default = false := by decide

theorem test_wf_memTranslate :
    (Instr.memTranslate 0 0xFFFFFFFF).wellFormed Config.default = true ∧
      (Instr.memTranslate 0 0x100000000).wellFormed Config.default = false := by decide

theorem test_wf_memRead :
    (Instr.memRead 0 0xFFFFFFFF).wellFormed Config.default = true ∧
      (Instr.memRead 0 0x100000000).wellFormed Config.default = false := by decide

theorem test_wf_memWrite :
    (Instr.memWrite 0 [1, 2]).wellFormed { sizeMax := 2 } = true ∧
      (Instr.memWrite 0 [1, 2, 3]).wellFormed { sizeMax := 2 } = false := by decide

theorem test_config_wf :
    Config.default.wf = true ∧ fullCart.wf = true ∧ Config.wf { cartSize := 0 } = false ∧
      Config.wf { cartSize := 0x02000001 } = false ∧ Config.wf { idxW := 6 } = false := by decide

/-! ### Records (30_encoding.md rule R72; the programs of 95_test_vectors.md part 3) -/

theorem test_decode_regRead : decoded 0 [13, 0x12] = some (.regRead 13 (.typed .irq)) := by decide
theorem test_decode_regRead_raw : decoded 0 [0, 0x00] = some (.regRead 0 (.raw 0b00000)) := by
  decide
theorem test_decode_regWrite :
    decoded 1 [16, 0x1B, 0x6000001F] = some (.regWrite 16 (.typed .undefined) 0x6000001F) := by decide
theorem test_decode_modeDecode : decoded 2 [0x12] = some (.modeDecode 0b10010) := by decide
theorem test_decode_psrN : decoded 3 [0x80000000] = some (.psrN 0x80000000) := by decide
theorem test_decode_psrZ : decoded 4 [0x40000000] = some (.psrZ 0x40000000) := by decide
theorem test_decode_psrC : decoded 5 [0x20000000] = some (.psrC 0x20000000) := by decide
theorem test_decode_psrV : decoded 6 [0x10000000] = some (.psrV 0x10000000) := by decide
theorem test_decode_psrI : decoded 7 [0x6000001F] = some (.psrI 0x6000001F) := by decide
theorem test_decode_psrF : decoded 8 [0x000000D3] = some (.psrF 0x000000D3) := by decide
theorem test_decode_psrT : decoded 9 [0x000000D3] = some (.psrT 0x000000D3) := by decide
theorem test_decode_psrMode : decoded 10 [0x60000092] = some (.psrMode 0x60000092) := by decide
theorem test_decode_memTranslate :
    decoded 11 [0x0C007FFF, 1] = some (.memTranslate 0x0C007FFF 1) := by decide
theorem test_decode_memRead : decoded 12 [0x0A000000, 4] = some (.memRead 0x0A000000 4) := by decide
theorem test_decode_memWrite :
    decoded 13 [0x040003FC, 0x11, 0x22, 0x33] = some (.memWrite 0x040003FC [0x11, 0x22, 0x33]) := by
  decide

/-- 92_eei_decisions.md D5: of a field wider than five bits only bits 4–0 are used. -/
theorem test_decode_wide_pattern :
    decoded 0 [13, 0xFFF2] = some (.regRead 13 (.typed .irq)) ∧
      decoded 1 [13, 0x20, 5] = some (.regWrite 13 (.raw 0b00000) 5) ∧
      decoded 2 [0x37] = some (.modeDecode 0b10111) := by decide

/-- Rule R71: ordinals 14 and 15; rule R10: numbers too wide for their operand; and operands missing. -/
theorem test_undecoded :
    undecoded 14 [] = some (.unassignedOrdinal 14) ∧ undecoded 15 [0] = some (.unassignedOrdinal 15) ∧
      undecoded 3 [0x100000000] = some (.operandTooWide 3) ∧
      undecoded 13 [0, 0x100] = some (.operandTooWide 13) ∧
      undecoded 0 [0] = some (.wrongOperands 0) := by decide

theorem test_table_words :
    decodeTableWord 8 0x02 = some (.modeDecode 0) ∧ decodeTableWord 8 0x0D = some (.memWrite 0 []) ∧
      decodeTableWord 8 0x0E = none ∧ decodeTableWord 8 0x0F = none := by decide

/-! ### Single steps -/

/-- Section 2.2 lines 2 and 3. -/
theorem test_regRead :
    outOf (exec (.regRead 0 (.raw 0b10000)) (withReg 0 0x0000ABCD)) =
        some (.word (some 0x0000ABCD)) ∧
      outOf (exec (.regRead 0 (.raw 0b00000)) (withReg 0 0x0000ABCD)) = some (.word none) := by decide

/-- Section 2.1 lines 10 and 31, and section 1.6 line 12. -/
theorem test_regRead_typed :
    outOf (exec (.regRead 13 (.typed .system)) (withReg 18 0x03007F00)) =
        some (.word (some 0x03007F00)) ∧
      outOf (exec (.regRead 18 (.typed .user)) State.reset) = some (.word none) ∧
      outOf (exec (.regRead 255 (.typed .fiq)) State.reset) = some (.word none) := by decide

/-- Section 2.1 lines 5 and 25. -/
theorem test_regWrite :
    regOf 27 (exec (.regWrite 14 (.typed .supervisor) 0x08000124) State.reset) = some 0x08000124 ∧
      regOf 31 (exec (.regWrite 16 (.typed .irq) 0xFFFFFFFF) State.reset) = some 0xFFFFFFFF := by decide

/-- Section 2.2 lines 8 and 10. -/
theorem test_regWrite_raw :
    regOf 31 (exec (.regWrite 16 (.raw 0b00000) 0x000000D3) State.reset) = some 0 ∧
      regOf 22 (exec (.regWrite 13 (.raw 0b10111) 0x00001234) State.reset) = some 0x00001234 := by
  decide

/-- Section 2.3. -/
theorem test_modeDecode :
    outOf (exec (.modeDecode 0b10111) State.reset) = some (.mode .abort) ∧
      outOf (exec (.modeDecode 0b10110) State.reset) = some (.mode .undefined) := by decide

/-- Section 2.4. -/
theorem test_psrN :
    outOf (exec (.psrN 0x80000000) State.reset) = some (.flag true) ∧
      outOf (exec (.psrN 0x7FFFFFFF) State.reset) = some (.flag false) := by decide
theorem test_psrZ :
    outOf (exec (.psrZ 0x40000000) State.reset) = some (.flag true) ∧
      outOf (exec (.psrZ 0xBFFFFFFF) State.reset) = some (.flag false) := by decide
theorem test_psrC :
    outOf (exec (.psrC 0x20000000) State.reset) = some (.flag true) ∧
      outOf (exec (.psrC 0xDFFFFFFF) State.reset) = some (.flag false) := by decide
theorem test_psrV :
    outOf (exec (.psrV 0x10000000) State.reset) = some (.flag true) ∧
      outOf (exec (.psrV 0xEFFFFFFF) State.reset) = some (.flag false) := by decide
theorem test_psrI :
    outOf (exec (.psrI 0x00000080) State.reset) = some (.flag true) ∧
      outOf (exec (.psrI 0xFFFFFF7F) State.reset) = some (.flag false) := by decide
theorem test_psrF :
    outOf (exec (.psrF 0x00000040) State.reset) = some (.flag true) ∧
      outOf (exec (.psrF 0xFFFFFFBF) State.reset) = some (.flag false) := by decide
theorem test_psrT :
    outOf (exec (.psrT 0x00000020) State.reset) = some (.flag true) ∧
      outOf (exec (.psrT 0xFFFFFFDF) State.reset) = some (.flag false) := by decide
theorem test_psrMode :
    outOf (exec (.psrMode 0x90000031) State.reset) = some (.mode .fiq) ∧
      outOf (exec (.psrMode 0xFFFFFFE0) State.reset) = some (.mode .undefined) := by decide

/-- Section 2.5: the end of IO, and the sum that must not wrap. -/
theorem test_memTranslate :
    outOf (exec (.memTranslate 0x040003FC 3) State.reset) = some (.mapping (some (.io, 0x3FC))) ∧
      outOf (exec (.memTranslate 0x040003FC 4) State.reset) = some (.mapping none) ∧
      outOf (exec (.memTranslate 0x00003FFF 0xFFFFFFFF) State.reset) = some (.mapping none) := by
  decide +kernel

/-- Section 2.5, with `CART_SIZE = 0x02000000`. -/
theorem test_memTranslate_fullCart :
    outOf (exec (.memTranslate 0x09FFFFFF 1) (State.boot fullCart)) =
        some (.mapping (some (.cart, 0x1FFFFFF))) ∧
      outOf (exec (.memTranslate 0x09FFFFFF 2) (State.boot fullCart)) = some (.mapping none) ∧
      outOf (exec (.memTranslate 0x0A000000 1) (State.boot fullCart)) =
        some (.mapping (some (.cart, 0))) := by decide +kernel

/-- Section 2.7 line 4, and line 22. -/
theorem test_memRead :
    outOf (exec (.memRead 0x02000001 2) (withBytes .ewram 0 [0x78, 0x56, 0x34, 0x12])) =
        some (.bytes (some [0x56, 0x34])) ∧
      outOf (exec (.memRead 0x01000000 1) State.reset) = some (.bytes none) := by decide +kernel

/-- Section 1.7 lines 1 to 3: the windows alias. -/
theorem test_memRead_alias :
    outOf (exec (.memRead 0x0A000000 4) (withBytes .cart 0 [0xDE, 0xAD, 0xBE, 0xEF])) =
      some (.bytes (some [0xDE, 0xAD, 0xBE, 0xEF])) := by decide +kernel

/-- Section 2.7 line 8. -/
theorem test_memWrite :
    bytesOf .ewram 0 6 (exec (.memWrite 0x02000002 [0xBB, 0xCC, 0xDD])
        (withBytes .ewram 0 [0x78, 0xAA, 0x34, 0x12])) =
      some [0x78, 0xAA, 0xBB, 0xCC, 0xDD, 0x00] := by decide +kernel

/-- Section 2.7 lines 12, 13, 26 and 27. -/
theorem test_memWrite_fails :
    outOf (exec (.memWrite 0x00003FFE [1, 2, 3]) State.reset) = some (.stored false) ∧
      bytesOf .bios 0x3FFE 2 (exec (.memWrite 0x00003FFE [1, 2, 3]) State.reset) = some [0, 0] ∧
      outOf (exec (.memWrite 0x03000000 []) State.reset) = some (.stored true) ∧
      outOf (exec (.memWrite 0x03008000 []) State.reset) = some (.stored false) := by decide +kernel

/-- A step from the reset state with a table word as the next record runs that row's operation. -/
theorem test_step_table_word :
    outOf (step (State.reset.withFetchWord 8 0x0A)) = some (.mode .undefined) ∧
      refusalOf (step (State.reset.withFetchWord 8 0x0E)) =
        some (.namesNoOperation (.unassignedOrdinal 14)) := by decide

/-- Section 2.8 lines 6 and 11, and the line after the table. -/
theorem test_reset :
    outOf (step (State.reset.issue [.regRead 15 (.typed .undefined)])) = some (.word (some 0)) ∧
      outOf (step ((State.boot { pcReset := 0x08000000 }).issue [.regRead 15 (.typed .undefined)])) =
        some (.word (some 0x08000000)) ∧
      outOf (step (State.reset.issue [.memRead 0 4])) = some (.bytes (some [0, 0, 0, 0])) := by
  decide +kernel

/-- A stored zero leaves no cell: equal memories are equal data. -/
theorem test_memory_canonical :
    Buffer.write (Buffer.write [] 5 7) 5 0 = [] ∧
      Buffer.write (Buffer.write [] 5 7) 3 9 = Buffer.write (Buffer.write [] 3 9) 5 7 := by decide

/-- 20_memory.md rule R47, on the word of section 2.7 line 3. -/
theorem test_word_view : le32 0x78 0x56 0x34 0x12 = 0x12345678 ∧
    bytes32 0x12345678 = [0x78, 0x56, 0x34, 0x12] := by decide

/-- 30_encoding.md rule R77, on lines of 95_test_vectors.md. -/
theorem test_traceLine :
    traceLine (.regRead 13 (.typed .irq)) (.word (some 0)) = "REG_READ 13, IRQ -> some 0x00000000" ∧
      traceLine (.memTranslate 0x0C007FFF 1) (.mapping (some (.cart, 0x7FFF))) =
        "MEM_TRANSLATE 0x0C007FFF, 1 -> some (CART, 0x7FFF)" := by decide +kernel

/-! ### Witnesses of the statements

Each theorem shows operands and a state that meet the hypotheses of the statement it names together, at
a boundary of each clause's range; where clauses divide the operands between them, no value falls under
two. -/

theorem test_witness_CanonicalOperationRunsAlike :
    (Instr.regRead 0 (.raw (modeEncode .irq))).canonical = .regRead 0 (.typed .irq) ∧
      (Instr.regWrite 99 (.raw (modeEncode .user)) 1).canonical = .regWrite 99 (.typed .user) 1 ∧
      (Instr.regRead 0 (.raw 0b00101)).canonical = .regRead 0 (.raw 0b00101) := by decide

theorem test_witness_RecordOfDecodedOperationIsTheRecord :
    decode ⟨0, [17, 0x1F]⟩ = .ok (.regRead 17 (.typed .system)) ∧
      Record.patternsFit ⟨0, [17, 0x1F]⟩ = true ∧ Record.patternsFit ⟨0, [17, 0x20]⟩ = false :=
  ⟨rfl, by decide, by decide⟩

theorem test_witness_UnassignedOrdinalsAreRefused :
    ((14 : BitVec 4) = 14 ∨ (14 : BitVec 4) = 15) ∧ ((15 : BitVec 4) = 14 ∨ (15 : BitVec 4) = 15) ∧
      (State.inbox { State.reset with inbox := [⟨15, [0]⟩] }) = ⟨15, [0]⟩ :: [] := by decide

theorem test_witness_StepRunsTheDecodedOperation_runs :
    (State.inbox { State.reset with inbox := [⟨2, [0x12]⟩] }) = ⟨2, [0x12]⟩ :: [] ∧
      decode ⟨2, [0x12]⟩ = .ok (.modeDecode 0b10010) := ⟨rfl, rfl⟩

theorem test_witness_StepRunsTheDecodedOperation_refuses :
    (State.inbox { State.reset with inbox := [⟨2, []⟩] }) = ⟨2, []⟩ :: [] ∧
      decode ⟨2, []⟩ = .error (.wrongOperands 2) := ⟨rfl, rfl⟩

theorem test_witness_StepRunsTheDecodedOperation_idles : State.reset.inbox = [] := rfl

/-- Each of the eighteen indices falls under exactly one of the three clauses. -/
theorem test_witness_SlotsSharedBetweenModes :
    ∀ i : Fin 18,
      ((if i.val ≤ 7 ∨ i = 15 ∨ i = 16 then 1 else 0) +
        (if 8 ≤ i.val ∧ i.val ≤ 12 then 1 else 0) +
        if i = 13 ∨ i = 14 ∨ i = 17 then 1 else 0) = 1 := by decide

theorem test_witness_RegReadAnswersTheSlot : 17 < 18 ∧ ((17 : Fin 18) : Nat) = 17 := by decide

theorem test_witness_RegWriteOverwritesTheSlot :
    slot 17 .undefined = 37 ∧ (0 : Fin 38) ≠ slot 17 .undefined ∧ 17 < 18 := by decide

theorem test_witness_unrecognized_patterns :
    (∀ m, (0b00000 : Mode5) ≠ modeEncode m) ∧ (∀ m, (0b10100 : Mode5) ≠ modeEncode m) ∧
      ∀ m, (0b11110 : Mode5) ≠ modeEncode m :=
  ⟨by intro m; cases m <;> decide, by intro m; cases m <;> decide, by intro m; cases m <;> decide⟩

theorem test_witness_BankingSymmetry :
    slot 13 .user = slot 13 .system ∧ slot 13 .irq ≠ slot 13 .system ∧
      slot 8 .fiq ≠ slot 8 .user := by decide

theorem test_witness_SavedStatusOfUserAndSystem :
    (Mode.system = .user ∨ Mode.system = .system) ∧ Mode.undefined ≠ .user ∧
      Mode.undefined ≠ .system := by decide

theorem test_witness_RegisterBankFrame :
    writtenSlot 13 (.typed .user) ≠ some 19 ∧
      writtenSlot 13 (.typed .user) ≠ writtenSlot 13 (.typed .fiq) ∧
      writtenSlot 13 (.typed .user) = writtenSlot 13 (.raw 0b11111) ∧
      writtenSlot 18 (.typed .user) = writtenSlot 0 (.raw 0b00000) := by decide

theorem test_witness_CpsrSteersNoOperation :
    (∀ mo, Instr.regRead 15 (.typed .user) ≠ .regRead 16 mo) ∧ (30 : Fin 38) ≠ 31 :=
  ⟨fun mo => by simp, by decide⟩

theorem test_witness_TrapEntryAndReturnByExplicitWrites :
    ∀ r ∈ [(0 : Fin 38), 18, 32, 37], r ≠ slot 17 .irq ∧ r ≠ slot 14 .irq ∧ r ≠ 31 ∧ r ≠ 30 := by
  decide

theorem test_witness_QueriesReadOnlyTheirMask :
    (0x80000000 : Word) &&& 0x80000000 = 0xFFFFFFFF &&& 0x80000000 ∧
      (0x6000001F : Word) &&& 0x0000001F = 0x0FFFFF1F &&& 0x0000001F := by decide

theorem test_witness_StatusWordIsItsFields :
    psrN 0x600000D3 = psrN 0x600000D3 ∧ psrZ 0x600000D3 = psrZ 0x600000D3 ∧
      psrC 0x600000D3 = psrC 0x600000D3 ∧ psrV 0x600000D3 = psrV 0x600000D3 ∧
      psrI 0x600000D3 = psrI 0x600000D3 ∧ psrF 0x600000D3 = psrF 0x600000D3 ∧
      psrT 0x600000D3 = psrT 0x600000D3 ∧ psrField 0x600000D3 = psrField 0x600000D3 ∧
      psrUninterpreted 0x600000D3 = psrUninterpreted 0x600000D3 := by decide

/-- The last word of IWRAM, one byte more, and one address past the last (95_test_vectors.md section 2.5). -/
theorem test_witness_TranslateGivesBufferAndOffset :
    (⟨0x03000000, 0x8000, .iwram⟩ : Region) ∈ regionTable ∧
      0x03000000 ≤ (0x03007FFC : Addr).toNat ∧
      (0x03007FFC : Addr).toNat - 0x03000000 <
        Region.effLen State.reset.cartSize ⟨0x03000000, 0x8000, .iwram⟩ ∧
      (0x03007FFC : Addr).toNat - 0x03000000 + 4 ≤
        Region.effLen State.reset.cartSize ⟨0x03000000, 0x8000, .iwram⟩ ∧
      Region.effLen State.reset.cartSize ⟨0x03000000, 0x8000, .iwram⟩ <
        (0x03007FFC : Addr).toNat - 0x03000000 + 5 ∧
      ∀ r ∈ regionTable, ¬ (r.lo ≤ (0x03008000 : Addr).toNat ∧
        (0x03008000 : Addr).toNat - r.lo < r.effLen State.reset.cartSize) := by decide +kernel

theorem test_witness_ValidExactlyWhereMapped :
    valid 0x8000 0x040003FC 3 = true ∧ valid 0x8000 0x040003FC 4 = false ∧
      Region.covers 0x8000 ⟨0x04000000, 0x3FF, .io⟩ 0x040003FE = true ∧
      Region.covers 0x8000 ⟨0x04000000, 0x3FF, .io⟩ 0x040003FF = false := by decide +kernel

theorem test_witness_CartridgeWindowsReadAlike :
    State.reset.cartSize ≤ 0x02000000 ∧ 0x7FFF < State.reset.cartSize ∧
      0x7FFF + 1 ≤ State.reset.cartSize ∧ Memory.wf State.reset.mem = true ∧
      0x7FFF + [(0x77 : Byte)].length ≤ State.reset.cartSize := by decide

theorem test_witness_ZeroSizeAccesses :
    Memory.wf State.reset.mem = true ∧
      Region.covers State.reset.cartSize ⟨0x03000000, 0x8000, .iwram⟩ (0x03007FFF : Addr).toNat = true ∧
      ∀ r ∈ regionTable, r.covers State.reset.cartSize (0x03008000 : Addr).toNat = false := by
  decide +kernel

theorem test_witness_ReadAnswersTheWholeSpanOrNothing :
    memTranslate State.reset.cartSize 0x0E00FFFF 1 = some (.sram, 0xFFFF) ∧ 0 < 1 ∧
      memTranslate State.reset.cartSize 0x0E00FFFF 2 = none := by decide +kernel

theorem test_witness_WriteStoresTheWholeSpanOrNothing :
    Memory.wf State.reset.mem = true ∧
      memTranslate State.reset.cartSize 0x040003FE [(1 : Byte)].length = some (.io, 0x3FE) ∧
      [(1 : Byte)][0]? = some 1 ∧
      (BufId.pal ≠ .io ∨ 0x3FE < 0x3FE ∨ 0x3FE + [(1 : Byte)].length ≤ 0x3FE) ∧
      memTranslate State.reset.cartSize 0x040003FE [(1 : Byte), 2].length = none := by decide +kernel

theorem test_witness_WriteLeavesOtherGuestBytesAlone :
    Memory.wf State.reset.mem = true ∧
      memTranslate State.reset.cartSize 0x08000000 [(1 : Byte)].length = some (.cart, 0) ∧
      memTranslate State.reset.cartSize 0x0A000001 1 = some (.cart, 1) ∧
      (1 < 0 ∨ 0 + [(1 : Byte)].length ≤ 1) := by decide +kernel

theorem test_witness_WriteReadRoundTrip :
    Memory.wf State.reset.mem = true ∧
      memTranslate State.reset.cartSize 0x06017FFE [(0x12 : Byte), 0x34].length =
        some (.vram, 0x17FFE) ∧
      memTranslate State.reset.cartSize 0x06017FFC 3 = some (.vram, 0x17FFC) ∧
      (BufId.vram ≠ .vram ∨ 0x17FFC + 1 < 0x17FFE ∨
        0x17FFE + [(0x12 : Byte), 0x34].length ≤ 0x17FFC + 1) := by decide +kernel

theorem test_witness_MemoryOperationsAreIdempotent :
    Memory.wf (withBytes .ewram 0 [0x78]).mem = true := by decide

theorem test_witness_OneValidityForAllThreeMemoryOperations : State.reset.cartSize = 0x8000 := by
  decide

/-- Every range of the clauses is met: a small, the default and the full cartridge. -/
theorem test_witness_RegionContainment :
    (1 ≤ 0x8000 ∧ 0x8000 ≤ 0x02000000 ∧ 0x8000 < 0x02000000) ∧
      (1 ≤ fullCart.cartSize ∧ fullCart.cartSize ≤ 0x02000000 ∧ fullCart.cartSize = 0x02000000) ∧
      (⟨0x0E000000, 0x10000, .sram⟩ : Region) ∈ regionTable ∧ BufId.sram ≠ .cart ∧
      (⟨0x08000000, 0x02000000, .cart⟩ : Region) ∈ regionTable ∧ 0x08000000 ≠ 0 ∧
      (0x08000000 ≠ 0x0A000000 ∧ 0x08000000 ≠ 0x0C000000 ∧ 0x08000000 ≠ 0x0E000000) := by decide

theorem test_witness_ResetState :
    (29 : Fin 38) ≠ 30 ∧ BufId.ewram ≠ .bios ∧ 8 ≤ (8 : Fin 18).val ∧ (12 : Fin 18).val ≤ 12 := by
  decide

theorem test_witness_ResetMeetsTheInvariant :
    Config.default.wf = true ∧ fullCart.wf = true ∧ Config.wf { biosInit := [1, 2] } = true := by
  decide

theorem test_witness_StepKeepsTheInvariant :
    (State.issue State.reset [.memWrite 0x02000000 [7]]).Inv ∧
      step (State.issue State.reset [.memWrite 0x02000000 [7]]) =
        .next { State.reset with
          mem := Memory.setBuf State.reset.mem .ewram [(0, 7)], out := some (.stored true) } :=
  ⟨by decide, rfl⟩

theorem test_witness_OnlyTheTwoWritesChangeState :
    Memory.wf State.reset.mem = true ∧
      (∀ idx mo v, Instr.memWrite 0 [1] ≠ .regWrite idx mo v) ∧
      ∀ addr data, Instr.regWrite 0 (.typed .user) 1 ≠ .memWrite addr data :=
  ⟨by decide, fun _ _ _ => by simp, fun _ _ => by simp⟩

theorem test_witness_NoOperationStopsTheMachine : State.reset.Inv := by decide

theorem test_witness_NoHiddenState :
    ∃ s s' : State, s ≠ s' ∧ s.regs = s'.regs ∧ s.mem = s'.mem ∧ s.cartSize = s'.cartSize :=
  ⟨State.reset, { State.reset with out := some .written }, by decide, rfl, rfl, rfl⟩

theorem test_witness_ComponentsDoNotTouchEachOther :
    (∃ s s' : State, s ≠ s' ∧ s.regs = s'.regs) ∧
      ∃ s s' : State, s ≠ s' ∧ s.mem = s'.mem ∧ s.cartSize = s'.cartSize :=
  ⟨⟨State.reset, withBytes .ewram 0 [7], by decide, rfl⟩,
    ⟨State.reset, withReg 0 7, by decide, rfl, rfl⟩⟩

theorem test_witness_OutcomesMatchAnswers :
    outcomeOf 0x8000 (.regRead 18 (.typed .user)) = .regAbsent ∧
      outcomeOf 0x8000 (.regWrite 99 (.raw 0b00101) 1) = .regIgnored ∧
      outcomeOf 0x8000 (.memTranslate 0x01000000 1) = .memNoMapping ∧
      outcomeOf 0x8000 (.memRead 0x0E00FFFF 2) = .memNoData ∧
      outcomeOf 0x8000 (.memWrite 0x03008000 []) = .memWriteFailed ∧
      outcomeOf 0x8000 (.modeDecode 0) = .ok := by decide +kernel

theorem test_witness_MemoryReadsAnswerTheLatestWrite :
    Memory.wf State.reset.mem = true ∧
      memTranslate State.reset.cartSize 0x02000000 6 = some (.ewram, 0) ∧ 5 < 6 := by decide +kernel

theorem test_witness_SavedStateIsRestoredByWrites :
    State.reset.Inv ∧ (withReg 37 5).Inv ∧ State.reset.cartSize = (withReg 37 5).cartSize := by decide

theorem test_witness_BiosImageByParameterOrByWrite :
    Config.wf { biosInit := [0x01, 0x00, 0xA0, 0xE3] } = true := by decide

end Sys2Proof.Tests
end

/-! The scope of the block: what every step keeps, and that its two components are apart
(00_scope.md). -/

namespace Sys2Proof

theorem Config.wf_iff (c : Config) :
    c.wf = true ↔ c.biosInit.length ≤ 0x4000 ∧ 1 ≤ c.cartSize ∧ c.cartSize ≤ 0x02000000 ∧
      7 ≤ c.idxW := by
  simp [Config.wf, and_assoc]

theorem Config.default_wf : Config.default.wf = true := by decide

namespace Machine

/-! ### The invariant along a step -/

/-- The invariant does not speak of what the agent is about to issue. -/
@[simp] theorem withInbox_inv (s : State) (rs : List Record) :
    State.inv { s with inbox := rs } = s.inv := rfl

/-- Every operation keeps the invariant. -/
theorem after_inv (i : Instr) {s : State} (h : s.Inv) : (after i s).Inv := by
  rw [State.inv_iff] at h ⊢
  obtain ⟨hpos, hmax, hwf, hbounds⟩ := h
  refine ⟨?_, ?_, after_wf i hwf, after_inBounds i hbounds⟩
  · rwa [after_cartSize]
  · rwa [after_cartSize]

theorem step_inv {s t : State} (hs : s.Inv) (h : step s = .next t) : t.Inv := by
  obtain ⟨-, rfl⟩ | ⟨r, rest, i, -, -, rfl⟩ := step_eq_next h
  · exact hs
  · exact after_inv i ((withInbox_inv s rest).trans hs)

theorem step_cartSize {s t : State} (h : step s = .next t) : t.cartSize = s.cartSize := by
  obtain ⟨-, rfl⟩ | ⟨r, rest, i, -, -, rfl⟩ := step_eq_next h
  · rfl
  · exact after_cartSize i _

/-- Settles O40: a step either idles or runs one operation, and every operation keeps the canonical
form, the buffers' bounds and `CART_SIZE`. -/
theorem stepKeepsTheInvariant : Obligations.StepKeepsTheInvariant :=
  fun _ _ hs h => ⟨step_inv hs h, step_cartSize h⟩

/-! ### The invariant at reset -/

theorem Buffer.ofBytes_wfFrom (image : List Byte) :
    Buffer.wfFrom 0 (Buffer.ofBytes image) = true :=
  Buffer.writeBytes_wfFrom image le_rfl rfl

/-- An image no longer than its buffer fills cells of that buffer only. -/
theorem Buffer.ofBytes_below {size : Nat} {image : List Byte} (h : image.length ≤ size) :
    Buffer.below size (Buffer.ofBytes image) = true :=
  Buffer.writeBytes_below image (by omega) rfl

theorem Memory.zero_wf : Memory.wf Memory.zero = true :=
  (Memory.wf_iff _).2 fun b => by rw [Memory.buf_zero]; rfl

theorem Memory.zero_inBounds (cartSize : Nat) : Memory.inBounds cartSize Memory.zero = true :=
  (Memory.inBounds_iff _ _).2 fun b => by rw [Memory.buf_zero]; rfl

theorem bootMem_wf (c : Config) : Memory.wf (bootMem c) = true :=
  Memory.setBuf_wf Memory.zero_wf (Buffer.ofBytes_wfFrom c.biosInit)

theorem bootMem_inBounds {c : Config} (cartSize : Nat) (h : c.biosInit.length ≤ 0x4000) :
    Memory.inBounds cartSize (bootMem c) = true :=
  Memory.setBuf_inBounds (Memory.zero_inBounds cartSize) (Buffer.ofBytes_below h)

theorem boot_inv {c : Config} (h : c.wf = true) : (State.boot c).Inv := by
  obtain ⟨himage, hpos, hmax, -⟩ := (Config.wf_iff c).1 h
  exact (State.inv_iff _).2 ⟨hpos, hmax, bootMem_wf c, bootMem_inBounds c.cartSize himage⟩

/-- Settles O39: the only cells at reset are those of a BIOS image that fits its buffer. -/
theorem resetMeetsTheInvariant : Obligations.ResetMeetsTheInvariant :=
  ⟨fun _ h => boot_inv h, boot_inv Config.default_wf⟩

/-! ### The two components -/

/-- The answer and the slots after a register operation depend on the state through its slots only
(40_register_bank_ops.md rule R79). -/
theorem after_registerOp_congr {s s' : State} (hregs : s.regs = s'.regs) {idx : Nat}
    {mo : ModeOperand} {v : Word} {i : Instr} (hi : i = .regRead idx mo ∨ i = .regWrite idx mo v) :
    (after i s).out = (after i s').out ∧ (after i s).regs = (after i s').regs := by
  rcases hi with rfl | rfl
  · simp [hregs]
  · simp [hregs]

theorem after_registerOp_mem (s : State) {idx : Nat} {mo : ModeOperand} {v : Word} {i : Instr}
    (hi : i = .regRead idx mo ∨ i = .regWrite idx mo v) : (after i s).mem = s.mem := by
  rcases hi with rfl | rfl <;> rfl

/-- The answer and the buffers after a memory operation depend on the state through its buffers and
`CART_SIZE` only (42_address_decoder_ops.md rule R101). -/
theorem after_memoryOp_congr {s s' : State} (hmem : s.mem = s'.mem)
    (hcart : s.cartSize = s'.cartSize) {addr : Addr} {n : Nat} {data : List Byte} {i : Instr}
    (hi : i = .memTranslate addr n ∨ i = .memRead addr n ∨ i = .memWrite addr data) :
    (after i s).out = (after i s').out ∧ (after i s).mem = (after i s').mem := by
  rcases hi with rfl | rfl | rfl
  · simp [hmem, hcart]
  · simp [hmem, hcart]
  · simp [hmem, hcart]

theorem after_memoryOp_regs (s : State) {addr : Addr} {n : Nat} {data : List Byte} {i : Instr}
    (hi : i = .memTranslate addr n ∨ i = .memRead addr n ∨ i = .memWrite addr data) :
    (after i s).regs = s.regs := by
  rcases hi with rfl | rfl | rfl <;> rfl

/-- Settles O44, from the dependence and the frame of each kind of operation. -/
theorem componentsDoNotTouchEachOther : Obligations.ComponentsDoNotTouchEachOther := by
  constructor
  · intro s s' idx mo v hregs i hi
    obtain ⟨hout, hslots⟩ := after_registerOp_congr hregs hi
    exact ⟨_, _, exec_eq_next i s, exec_eq_next i s', hout, hslots,
      after_registerOp_mem s hi, after_registerOp_mem s' hi⟩
  · intro s s' addr n data hmem hcart i hi
    obtain ⟨hout, hbufs⟩ := after_memoryOp_congr hmem hcart hi
    exact ⟨_, _, exec_eq_next i s, exec_eq_next i s', hout, hbufs,
      after_memoryOp_regs s hi, after_memoryOp_regs s' hi⟩

end Machine

end Sys2Proof

/-! The registers and buffers of the block, their map to indices, modes and addresses, their contents
after reset, and what an operation reads and changes of them (10_state.md). -/

namespace Sys2Proof.Machine

/-! ### The slot map, range by range of the index (rule R21) -/

theorem slotNumber_of_le_seven {i : Nat} (h : i ≤ 7) (m : Mode) : slotNumber i m = i :=
  if_pos h

theorem slotNumber_of_high {i : Nat} (hlo : 8 ≤ i) (hhi : i ≤ 12) (m : Mode) :
    slotNumber i m = if m = .fiq then 13 + (i - 8) else i := by
  rw [slotNumber, if_neg (by omega), if_pos hhi]

theorem slot_val (i : Fin 18) (m : Mode) : (slot i m).val = slotNumber i.val m := rfl

@[simp] theorem slot_thirteen_val (m : Mode) : (slot 13 m).val = 18 + bank m := rfl
@[simp] theorem slot_fourteen_val (m : Mode) : (slot 14 m).val = 24 + bank m := rfl
@[simp] theorem slot_fifteen (m : Mode) : slot 15 m = 30 := rfl
@[simp] theorem slot_sixteen (m : Mode) : slot 16 m = 31 := rfl
@[simp] theorem slot_seventeen_val (m : Mode) : (slot 17 m).val = 32 + bank m := rfl

@[simp] theorem mem_allModes (m : Mode) : m ∈ allModes := by cases m <;> decide

/-- Two modes have one bank exactly if they are one mode or User and System (rule R14). -/
theorem bank_eq_iff (m m' : Mode) :
    bank m = bank m' ↔ m = m' ∨ (m = .user ∧ m' = .system) ∨ (m = .system ∧ m' = .user) := by
  have table : ∀ m ∈ allModes, ∀ m' ∈ allModes,
      (bank m = bank m' ↔ m = m' ∨ (m = .user ∧ m' = .system) ∨ (m = .system ∧ m' = .user)) := by
    decide
  exact table m (mem_allModes m) m' (mem_allModes m')

/-- Every slot belongs to one index, which `slotAddress` gives back whatever the mode. -/
theorem slotAddress_slot_fst (i : Fin 18) (m : Mode) : (slotAddress (slot i m)).1 = i.val := by
  have table : ∀ m ∈ allModes, ∀ i : Fin 18, (slotAddress (slot i m)).1 = i.val := by decide
  exact table m (mem_allModes m) i

/-- Two different indices never share a slot (rule R22). -/
theorem index_eq_of_slot_eq {i i' : Fin 18} {m m' : Mode} (h : slot i m = slot i' m') : i = i' := by
  apply Fin.ext
  rw [← slotAddress_slot_fst i m, h, slotAddress_slot_fst]

/-- The indices that are not banked have one slot under all modes. -/
theorem slot_eq_of_unbanked {i : Fin 18} (h : i.val ≤ 7 ∨ i = 15 ∨ i = 16) (m m' : Mode) :
    slot i m = slot i m' := by
  rcases h with hlow | rfl | rfl
  · apply Fin.ext
    rw [slot_val, slot_val, slotNumber_of_le_seven hlow, slotNumber_of_le_seven hlow]
  · simp
  · simp

/-- Indices 8 to 12 have one slot under FIQ and another under every other mode. -/
theorem slot_high_eq_iff {i : Fin 18} (hlo : 8 ≤ i.val) (hhi : i.val ≤ 12) (m m' : Mode) :
    slot i m = slot i m' ↔ (m = .fiq ∧ m' = .fiq) ∨ (m ≠ .fiq ∧ m' ≠ .fiq) := by
  rw [Fin.ext_iff, slot_val, slot_val, slotNumber_of_high hlo hhi, slotNumber_of_high hlo hhi]
  have hne : 13 + (i.val - 8) ≠ i.val := by omega
  by_cases hm : m = .fiq <;> by_cases hm' : m' = .fiq <;> simp [hm, hm', hne, hne.symm]

/-- Indices 13, 14 and 17 have one slot per bank. -/
theorem slot_banked_eq_iff {i : Fin 18} (h : i = 13 ∨ i = 14 ∨ i = 17) (m m' : Mode) :
    slot i m = slot i m' ↔ bank m = bank m' := by
  rcases h with rfl | rfl | rfl <;> simp [Fin.ext_iff]

/-- A write under one mode is read under every mode with the same slot. -/
theorem regRead_regWrite_of_slot_eq {i : Fin 18} {m m' : Mode} (h : slot i m = slot i m')
    (regs : RegFile) (v : Word) : regRead (regWrite regs i m v) i m' = some v := by
  simp [regRead, regWrite, h]

/-- Settles O7: an unbanked index, an index 8 to 12 and an index with one slot per bank each by its
range of the slot map, and different indices apart since a slot gives its index back. -/
theorem slotsSharedBetweenModes : Obligations.SlotsSharedBetweenModes := by
  refine ⟨fun i hi m m' => ?_, fun i hlo hhi => slot_high_eq_iff hlo hhi,
    fun i hi m m' => ⟨slot_banked_eq_iff hi m m', bank_eq_iff m m'⟩,
    fun i i' m m' => index_eq_of_slot_eq⟩
  have hslot := slot_eq_of_unbanked hi m m'
  exact ⟨hslot, regRead_regWrite_of_slot_eq hslot⟩

theorem resolve_eq_some {idx : Nat} {m : Mode} {r : Fin 38} :
    resolve idx m = some r ↔ ∃ h : idx < 18, slot ⟨idx, h⟩ m = r := by
  by_cases h : idx < 18 <;> simp [resolve, h]

/-- Settles O8: the table by evaluation; a slot is reached by the pair `slotAddress` names. -/
theorem slotOfEveryIndexAndMode : Obligations.SlotOfEveryIndexAndMode := by
  refine ⟨by decide, fun r => ?_⟩
  obtain ⟨h, hslot⟩ := resolve_eq_some.1 (resolve_slotAddress r)
  exact ⟨_, _, hslot⟩

/-! ### The region table and the buffers -/

/-- Outside the cartridge windows an entry declares its buffer's size; a cartridge window declares
0x02000000 (20_memory.md rule R34). -/
theorem declared_of_mem_regionTable (c : Nat) {r : Region} (hr : r ∈ regionTable) :
    r.declared = if r.buf = .cart then 0x02000000 else bufSize c r.buf := by
  simp only [regionTable, List.mem_cons, List.not_mem_nil, or_false] at hr
  rcases hr with rfl | rfl | rfl | rfl | rfl | rfl | rfl | rfl | rfl | rfl | rfl <;> rfl

/-- While the cartridge fits its windows, every entry's effective length is its buffer's size. -/
theorem effLen_eq_bufSize {c : Nat} (hc : c ≤ 0x02000000) {r : Region} (hr : r ∈ regionTable) :
    r.effLen c = bufSize c r.buf := by
  rw [Region.effLen, declared_of_mem_regionTable c hr]
  split
  · rename_i hcart
    rw [hcart]
    exact Nat.min_eq_right hc
  · exact Nat.min_self _

/-- Settles O24: the effective lengths from the sizes of the entries' buffers, the rest by evaluation. -/
theorem regionTableAsDeclared : Obligations.RegionTableAsDeclared := by
  refine ⟨by decide, fun c hc => ?_, by decide⟩
  rw [List.map_congr_left fun r hr => effLen_eq_bufSize hc hr]
  rfl

/-! ### The state after reset -/

theorem boot_reg (c : Config) (r : Fin 38) :
    (State.boot c).reg r = if r = 30 then c.pcReset else 0 := by
  have hzero : readSlot (Vector.replicate 38 0) r = 0 := Vector.getElem_replicate r.isLt
  exact (readSlot_writeSlot _ 30 r c.pcReset).trans (by rw [hzero])

@[simp] theorem Buffer.read_ofBytes (image : List Byte) (o : Nat) :
    Buffer.read (Buffer.ofBytes image) o = (image[o]?).getD 0 := by
  rw [Buffer.ofBytes, Buffer.read_writeBytes (lo := 0) rfl image le_rfl, if_pos (Nat.zero_le o)]
  rfl

theorem boot_byte (c : Config) (b : BufId) (o : Nat) :
    (State.boot c).byte b o = if b = .bios then (c.biosInit[o]?).getD 0 else 0 := by
  simp only [State.byte, State.boot, bootMem, Memory.buf_setBuf, Memory.buf_zero]
  split
  · exact Buffer.read_ofBytes c.biosInit o
  · rfl

/-- The status word is zero after reset. -/
@[simp] theorem boot_cpsr (c : Config) : (State.boot c).reg 31 = 0 := boot_reg c 31

/-- The zero pattern is no mode's, so the mode after reset is the default of `MODE_DECODE`. -/
@[simp] theorem boot_currentMode (c : Config) : currentMode (State.boot c) = .undefined := by
  rw [currentMode, boot_cpsr]
  decide

/-- Settles O38, from the words and bytes of the machine after reset. -/
theorem resetState : Obligations.ResetState := by
  refine ⟨rfl, rfl, rfl, fun c => ⟨fun r hr => ?_, boot_reg c 30, fun b o hb => ?_,
    boot_byte c .bios, boot_currentMode c, ?_⟩⟩
  · rw [boot_reg, if_neg hr]
  · rw [boot_byte, if_neg hb]
  · simp only [boot_currentMode, boot_cpsr]
    refine ⟨rfl, rfl, rfl, fun i hlo hhi => ?_, rfl, rfl, rfl⟩
    exact slotNumber_of_high hlo hhi .undefined

/-! ### What an operation changes -/

theorem after_regs_of_not_regWrite {i : Instr} (s : State)
    (h : ∀ idx mo v, i ≠ .regWrite idx mo v) : (after i s).regs = s.regs := by
  cases i with
  | regWrite idx mo v => exact absurd rfl (h idx mo v)
  | _ => rfl

theorem after_mem_of_not_memWrite {i : Instr} (s : State)
    (h : ∀ addr data, i ≠ .memWrite addr data) : (after i s).mem = s.mem := by
  cases i with
  | memWrite addr data => exact absurd rfl (h addr data)
  | _ => rfl

/-- Settles O41, from what a slot and a byte hold after an operation. -/
theorem onlyTheTwoWritesChangeState : Obligations.OnlyTheTwoWritesChangeState :=
  fun i s hwf => ⟨after i s, exec_eq_next i s, after_cartSize i s, after_inbox i s, after_reg i s,
    after_byte i hwf, after_regs_of_not_regWrite s, after_mem_of_not_memWrite s⟩

/-! ### What an operation depends on -/

/-- The last answer makes no difference to an operation, which overwrites it. -/
theorem after_withOut (i : Instr) (s : State) (o : Option Result) :
    after i { s with out := o } = after i s := by
  cases i <;> rfl

/-- Two states that differ in the inbox and the last answer only lead to states that differ in the
inbox only. -/
theorem after_eq_withInbox_of_fields {s s' : State} (hregs : s.regs = s'.regs)
    (hmem : s.mem = s'.mem) (hcart : s.cartSize = s'.cartSize) (i : Instr) :
    after i s' = { after i s with inbox := s'.inbox } := by
  have hs : s' = { s with inbox := s'.inbox, out := s'.out } :=
    State.eq_of_fields hregs.symm hmem.symm hcart.symm rfl rfl
  calc after i s' = after i { s with inbox := s'.inbox, out := s'.out } := congrArg (after i) hs
    _ = after i { s with inbox := s'.inbox } := after_withOut i { s with inbox := s'.inbox } s'.out
    _ = { after i s with inbox := s'.inbox } := after_withInbox i s s'.inbox

/-- Settles O43: the model's own two fields, the inbox and the last answer, steer no operation. -/
theorem noHiddenState : Obligations.NoHiddenState := by
  intro i s s' hregs hmem hcart
  have h := after_eq_withInbox_of_fields hregs hmem hcart i
  refine ⟨_, _, exec_eq_next i s, exec_eq_next i s', ?_⟩
  rw [h]
  exact ⟨rfl, rfl, rfl⟩

/-- The slots make no difference to what an operation leaves in memory. -/
theorem after_withRegs_mem (i : Instr) (s : State) (regs : RegFile) :
    (after i { s with regs := regs }).mem = (after i s).mem := by
  cases i <;> rfl

/-- A read answers the word of the slot a write with the same operands would go to. -/
theorem regReadOp_eq_writtenSlot (regs : RegFile) (idx : Nat) (mo : ModeOperand) :
    regReadOp regs idx mo = (writtenSlot idx mo).map (readSlot regs) := by
  rw [regReadOp_eq, writtenSlot, Option.map_bind]
  rfl

/-- A word stored in one slot makes no difference to a read of another. -/
theorem regReadOp_writeSlot_of_ne (regs : RegFile) {idx : Nat} {mo : ModeOperand} {r : Fin 38}
    (v : Word) (h : writtenSlot idx mo ≠ some r) :
    regReadOp (writeSlot regs r v) idx mo = regReadOp regs idx mo := by
  rw [regReadOp_eq_writtenSlot, regReadOp_eq_writtenSlot]
  apply Option.map_congr
  intro r' hr'
  apply readSlot_writeSlot_of_ne
  rintro rfl
  exact h hr'

/-- The slot an access goes to gives its index back. -/
theorem index_of_writtenSlot {idx : Nat} {mo : ModeOperand} {r : Fin 38}
    (h : writtenSlot idx mo = some r) : idx = (slotAddress r).1 := by
  obtain ⟨m, -, hm⟩ := Option.bind_eq_some_iff.1 h
  obtain ⟨hidx, rfl⟩ := resolve_eq_some.1 hm
  exact (slotAddress_slot_fst ⟨idx, hidx⟩ m).symm

/-- CPSR is reached by index 16 only. -/
theorem writtenSlot_ne_cpsr {idx : Nat} (h : idx ≠ 16) (mo : ModeOperand) :
    writtenSlot idx mo ≠ some 31 :=
  fun hslot => h (index_of_writtenSlot hslot)

/-- The word in CPSR makes no difference to the answer of an operation that does not read index 16. -/
theorem after_writeCpsr_out {i : Instr} (s : State) (c : Word) (h : ∀ mo, i ≠ .regRead 16 mo) :
    (after i { s with regs := writeSlot s.regs 31 c }).out = (after i s).out := by
  cases i with
  | regRead idx mo =>
    have hidx : idx ≠ 16 := by
      rintro rfl
      exact h mo rfl
    simp [regReadOp_writeSlot_of_ne s.regs c (writtenSlot_ne_cpsr hidx mo)]
  | _ => rfl

/-- The word in CPSR makes no difference to what an operation leaves in another slot. -/
theorem after_writeCpsr_reg (i : Instr) (s : State) (c : Word) {r : Fin 38} (hr : r ≠ 31) :
    (after i { s with regs := writeSlot s.regs 31 c }).reg r = (after i s).reg r := by
  have hold : State.reg { s with regs := writeSlot s.regs 31 c } r = s.reg r :=
    readSlot_writeSlot_of_ne s.regs c hr
  rw [after_reg, after_reg, hold]

/-- Settles O15: what an operation stores does not depend on the state's slots, and only index 16 reads
slot 31. -/
theorem cpsrSteersNoOperation : Obligations.CpsrSteersNoOperation :=
  fun i s c => ⟨_, _, exec_eq_next i s, exec_eq_next i _, fun _ hr => after_writeCpsr_reg i s c hr,
    after_withRegs_mem i s _, after_writeCpsr_out s c⟩

end Sys2Proof.Machine

/-! Memory and the order of operations (20_memory.md): where an access is valid, what a write leaves
alone, what a run of operations reads back, and the word views. -/

namespace Sys2Proof

/-! ### The record of an operation read back -/

@[simp] theorem decodePsr_toNat (op : BitVec 4) (mk : Word → Instr) (w : Word) :
    decodePsr op mk [w.toNat] = .ok (mk w) := by
  simp [decodePsr, Except.map]

@[simp] theorem decodeSpan_toNat (op : BitVec 4) (mk : Addr → Nat → Instr) (a : Addr) (n : Nat) :
    decodeSpan op mk [a.toNat, n] = .ok (mk a n) := by
  simp [decodeSpan, Except.map]

/-- A step that reads an operation's record gets the operation back, in canonical form. -/
theorem decode_encode (i : Instr) : decode (encode i) = .ok i.canonical := by
  cases i with
  | regRead idx mo =>
    change decodeRegRead [idx, mo.pattern.toNat] = _
    simp [decodeRegRead, Instr.canonical, ModeOperand.canonical]
  | regWrite idx mo v =>
    change decodeRegWrite [idx, mo.pattern.toNat, v.toNat] = _
    simp [decodeRegWrite, Instr.canonical, ModeOperand.canonical, Except.map]
  | modeDecode bits =>
    change decodeModeDecode [bits.toNat] = _
    simp [decodeModeDecode, Instr.canonical]
  | memWrite a data =>
    change decodeMemWrite (a.toNat :: data.map BitVec.toNat) = _
    simp [decodeMemWrite, Instr.canonical]
  | memTranslate a n => exact decodeSpan_toNat 11 .memTranslate a n
  | memRead a n => exact decodeSpan_toNat 12 .memRead a n
  | psrN w => exact decodePsr_toNat 3 .psrN w
  | psrZ w => exact decodePsr_toNat 4 .psrZ w
  | psrC w => exact decodePsr_toNat 5 .psrC w
  | psrV w => exact decodePsr_toNat 6 .psrV w
  | psrI w => exact decodePsr_toNat 7 .psrI w
  | psrF w => exact decodePsr_toNat 8 .psrF w
  | psrT w => exact decodePsr_toNat 9 .psrT w
  | psrMode w => exact decodePsr_toNat 10 .psrMode w

namespace Machine

/-- The canonical form of an operation does what the operation does. -/
@[simp] theorem after_canonical (i : Instr) (s : State) : after i.canonical s = after i s := by
  cases i with
  | regRead idx mo => simp [Instr.canonical]
  | regWrite idx mo v => simp [Instr.canonical]
  | _ => rfl

/-! ### Runs of operations -/

/-- The state a list of operations leads to, the first one run first. -/
def afterAll (ops : List Instr) (s : State) : State := ops.foldl (fun t i => after i t) s

@[simp] theorem afterAll_nil (s : State) : afterAll [] s = s := rfl

@[simp] theorem afterAll_cons (i : Instr) (ops : List Instr) (s : State) :
    afterAll (i :: ops) s = afterAll ops (after i s) := rfl

theorem afterAll_append (ops ops' : List Instr) (s : State) :
    afterAll (ops ++ ops') s = afterAll ops' (afterAll ops s) := List.foldl_append

/-- The first step of a run does what the first operation does, and leaves the rest issued. -/
theorem step_issue_cons (i : Instr) (ops : List Instr) (s : State) :
    step (s.issue (i :: ops)) = .next ((after i s).issue ops) := by
  have hinbox : (s.issue (i :: ops)).inbox = encode i :: (ops.map encode ++ s.inbox) := rfl
  rw [step_of_decode hinbox (decode_encode i), exec_eq_next, after_canonical, after_issue_cons]

/-- A run of operations always ends, in the state their effects compose to. -/
theorem runOps_eq_next (ops : List Instr) (s : State) : runOps ops s = .next (afterAll ops s) := by
  induction ops generalizing s with
  | nil => rfl
  | cons i ops ih => exact (run_of_step ops.length (step_issue_cons i ops s)).trans (ih (after i s))

theorem runOps_append_singleton (ops : List Instr) (i : Instr) (s : State) :
    runOps (ops ++ [i]) s = .next (after i (afterAll ops s)) := by
  rw [runOps_eq_next, afterAll_append, afterAll_cons, afterAll_nil]

@[simp] theorem afterAll_cartSize (ops : List Instr) (s : State) :
    (afterAll ops s).cartSize = s.cartSize := by
  induction ops generalizing s with
  | nil => rfl
  | cons i ops ih => rw [afterAll_cons, ih, after_cartSize]

theorem afterAll_wf (ops : List Instr) {s : State} (h : Memory.wf s.mem = true) :
    Memory.wf (afterAll ops s).mem = true := by
  induction ops generalizing s with
  | nil => exact h
  | cons i ops ih => exact ih (after_wf i h)

/-! ### The most recent write (rule R51) -/

/-- The latest value a list of operations gives, seen from its first operation: that operation's value is
what the rest find before them. -/
theorem findSome?_reverse_cons_getD {α : Type} (f : Instr → Option α) (i : Instr)
    (ops : List Instr) (before : α) :
    ((i :: ops).reverse.findSome? f).getD before =
      (ops.reverse.findSome? f).getD ((f i).getD before) := by
  rw [List.reverse_cons, List.findSome?_append]
  cases ops.reverse.findSome? f with
  | some v => rfl
  | none => cases h : f i <;> simp [h]

theorem latestWord_cons (r : Fin 38) (before : Word) (i : Instr) (ops : List Instr) :
    latestWord r before (i :: ops) = latestWord r ((storedWord r i).getD before) ops :=
  findSome?_reverse_cons_getD _ i ops before

theorem latestByte_cons (c : Nat) (b : BufId) (o : Nat) (before : Byte) (i : Instr)
    (ops : List Instr) :
    latestByte c b o before (i :: ops) =
      latestByte c b o ((storedByte c b o i).getD before) ops :=
  findSome?_reverse_cons_getD _ i ops before

/-- After a list of operations a slot holds the word of the most recent write to it. -/
theorem afterAll_reg (ops : List Instr) (s : State) (r : Fin 38) :
    (afterAll ops s).reg r = latestWord r (s.reg r) ops := by
  induction ops generalizing s with
  | nil => rfl
  | cons i ops ih => rw [afterAll_cons, ih, latestWord_cons, after_reg]

/-- After a list of operations a buffer offset holds the byte of the most recent write that covered
it. -/
theorem afterAll_byte (ops : List Instr) {s : State} (h : Memory.wf s.mem = true) (b : BufId)
    (o : Nat) :
    (afterAll ops s).byte b o = latestByte s.cartSize b o (s.byte b o) ops := by
  induction ops generalizing s with
  | nil => rfl
  | cons i ops ih =>
    rw [afterAll_cons, ih (after_wf i h), latestByte_cons, after_byte i h, after_cartSize]

/-- Settles O46: a read answers what its slot holds after the list. -/
theorem registerReadsAnswerTheLatestWrite : Obligations.RegisterReadsAnswerTheLatestWrite := by
  intro ops s i m
  refine ⟨_, runOps_append_singleton ops _ s, ?_⟩
  have hread : regReadOp (afterAll ops s).regs i (.typed m) =
      some ((afterAll ops s).reg (slot i m)) := by
    simp [regReadOp_eq, State.reg]
  rw [after_regRead, answer_out, hread, afterAll_reg]

/-- Settles O47: a read answers the bytes its span holds after the list, and the list does not move the
span, since it does not change `CART_SIZE`. -/
theorem memoryReadsAnswerTheLatestWrite : Obligations.MemoryReadsAnswerTheLatestWrite := by
  intro ops s addr n b off hwf hmap
  have hread : memRead (afterAll ops s).cartSize (afterAll ops s).mem addr n =
      some (Buffer.readBytes (Memory.buf (afterAll ops s).mem b) off n) := by
    rw [afterAll_cartSize, memRead_of_some hmap]
  refine ⟨_, _, runOps_append_singleton ops _ s, by rw [after_memRead, answer_out, hread],
    Buffer.readBytes_length _ off n, fun j hj => ?_⟩
  rw [Buffer.readBytes_getElem?, if_pos hj, ← afterAll_byte ops hwf]
  rfl

/-! ### Valid accesses (rules R35, R36, R39 and R59) -/

/-- The one entry that begins at address 0 has bytes, whatever `CART_SIZE`, so no entry's last address is
cut off at 0. -/
theorem lo_add_effLen_pos (c : Nat) {r : Region} (hr : r ∈ regionTable) :
    0 < r.lo + r.effLen c := by
  simp only [regionTable, List.mem_cons, List.not_mem_nil, or_false] at hr
  rcases hr with rfl | rfl | rfl | rfl | rfl | rfl | rfl | rfl | rfl | rfl | rfl <;>
    simp [Region.effLen, bufSize]

/-- The effective range of an entry of the table by its first and last address. -/
theorem covers_iff_le_last (c : Nat) {r : Region} (hr : r ∈ regionTable) (a : Nat) :
    r.covers c a = true ↔ r.lo ≤ a ∧ a ≤ r.lo + r.effLen c - 1 := by
  have hpos := lo_add_effLen_pos c hr
  rw [Region.covers_iff]
  omega

/-- `Valid` as the rule writes it. -/
theorem valid_iff (c : Nat) (addr : Addr) (n : Nat) :
    valid c addr n = true ↔ ∃ r ∈ regionTable, r.covers c addr.toNat = true ∧
      r.contains c addr.toNat n = true := by
  simp [valid]

theorem valid_iff_mapped (c : Nat) (addr : Addr) (n : Nat) :
    valid c addr n = true ↔ ∃ b off, memTranslate c addr n = some (b, off) := by
  rw [valid_eq_isSome, Option.isSome_iff_exists, Prod.exists]

/-- Two entries of the table are one, or one of them ends before the other begins. -/
theorem regionTable_apart {r r' : Region} (hr : r ∈ regionTable) (hr' : r' ∈ regionTable) :
    r = r' ∨ r.lo + r.declared ≤ r'.lo ∨ r'.lo + r'.declared ≤ r.lo := by
  have table : ∀ r ∈ regionTable, ∀ r' ∈ regionTable,
      r = r' ∨ r.lo + r.declared ≤ r'.lo ∨ r'.lo + r'.declared ≤ r.lo := by decide
  exact table r hr r' hr'

/-- One entry at most covers an address. -/
theorem region_eq_of_covers {c a : Nat} {r r' : Region} (hr : r ∈ regionTable)
    (hr' : r' ∈ regionTable) (h : r.covers c a = true) (h' : r'.covers c a = true) : r = r' := by
  rw [Region.covers_iff] at h h'
  have hle := Region.effLen_le_declared c r
  have hle' := Region.effLen_le_declared c r'
  rcases regionTable_apart hr hr' with heq | hbefore | hafter
  · exact heq
  · omega
  · omega

/-- Settles O26: covering is lying between an entry's first and last address, and the declared ranges do
not meet. -/
theorem validExactlyWhereMapped : Obligations.ValidExactlyWhereMapped := by
  refine ⟨fun c addr n => ⟨?_, valid_iff_mapped c addr n⟩,
    fun c a r hr r' hr' => region_eq_of_covers hr hr'⟩
  rw [valid_iff]
  refine exists_congr fun r => and_congr_right fun hr => ?_
  rw [covers_iff_le_last c hr, Region.contains_iff, and_assoc]

/-- An entry that covers the start address holds a span of no byte there. -/
theorem contains_zero_of_covers {c a : Nat} {r : Region} (h : r.covers c a = true) :
    r.contains c a 0 = true := by
  rw [Region.covers_iff] at h
  rw [Region.contains_iff]
  omega

theorem memTranslate_zero_of_covers {c : Nat} {addr : Addr} {r : Region} (hr : r ∈ regionTable)
    (hc : r.covers c addr.toNat = true) :
    memTranslate c addr 0 = some (r.buf, addr.toNat - r.lo) := by
  rw [memTranslate_of_covers 0 hr hc, if_pos (contains_zero_of_covers hc)]

/-- Accesses of every size fail at an address exactly if no entry covers it. -/
theorem unmapped_iff_uncovered (c : Nat) (addr : Addr) :
    (∀ n, memTranslate c addr n = none) ↔ ∀ r ∈ regionTable, r.covers c addr.toNat = false := by
  constructor
  · intro h r hr
    rw [Bool.eq_false_iff]
    intro hc
    have hzero := h 0
    rw [memTranslate_zero_of_covers hr hc] at hzero
    cases hzero
  · exact fun h n => memTranslate_of_uncovered n h

/-- Settles O28: the addresses outside the eleven effective ranges, by arithmetic on their bounds. -/
theorem unmappedAddressesAreTheGaps : Obligations.UnmappedAddressesAreTheGaps := by
  intro addr
  have hlt := addr.isLt
  rw [unmapped_iff_uncovered]
  simp only [← Bool.not_eq_true, Region.covers_iff, Region.effLen, regionTable, bufSize,
    List.forall_mem_cons, List.exists_mem_cons_iff, List.not_mem_nil, false_and, exists_false,
    or_false, false_implies, implies_true, and_true]
  omega

/-- Settles O30: a span of no byte is mapped exactly where an entry covers its address. -/
theorem zeroSizeAccesses : Obligations.ZeroSizeAccesses := by
  intro s addr _
  constructor
  · intro r hr hc
    have hmap := memTranslate_zero_of_covers hr hc
    refine ⟨?_, ?_, ?_⟩
    · rw [exec_eq_next, after_memTranslate, hmap]; rfl
    · rw [exec_eq_next, after_memRead, memRead_of_some hmap]; rfl
    · rw [exec_eq_next, after_memWrite, memWriteOk_of_some (data := []) hmap,
        memWrite_of_some (data := []) hmap]
      simp [Buffer.writeBytes, State.answer]
  · intro hnone
    have hmap : memTranslate s.cartSize addr 0 = none := memTranslate_of_uncovered 0 hnone
    refine ⟨?_, ?_, ?_⟩
    · rw [exec_eq_next, after_memTranslate, hmap]; rfl
    · rw [exec_eq_next, after_memRead, memRead_of_none hmap]; rfl
    · rw [exec_eq_next, after_memWrite, memWriteOk_of_none (data := []) hmap,
        memWrite_of_none (data := []) hmap]
      rfl

/-- A read answers bytes exactly where its span is mapped. -/
@[simp] theorem memRead_isSome (c : Nat) (mem : Memory) (addr : Addr) (n : Nat) :
    (memRead c mem addr n).isSome = (memTranslate c addr n).isSome := by
  cases h : memTranslate c addr n with
  | none => rw [memRead_of_none h]; rfl
  | some p => rw [memRead_of_some h]; rfl

/-- Settles O36: the one result is the translation, which takes nothing of the state but `CART_SIZE`. -/
theorem oneValidityForAllThreeMemoryOperations :
    Obligations.OneValidityForAllThreeMemoryOperations := by
  intro c addr data
  refine ⟨memTranslate c addr data.length, ?_⟩
  rintro s rfl
  exact ⟨exec_eq_next _ s, ⟨_, exec_eq_next _ s, memRead_isSome ..⟩, ⟨_, exec_eq_next _ s, rfl⟩⟩

/-! ### What a memory write leaves alone and repeats (rules R46 and R56) -/

/-- A write stores nothing at an offset outside its translated span. -/
theorem writtenByte_eq_none {c : Nat} {addr : Addr} {data : List Byte} {b : BufId} {o : Nat}
    (h : ∀ off, memTranslate c addr data.length = some (b, off) →
      o < off ∨ off + data.length ≤ o) : writtenByte c addr data b o = none := by
  unfold writtenByte
  cases hmap : memTranslate c addr data.length with
  | none => rfl
  | some p =>
    obtain ⟨b', off⟩ := p
    rw [Option.bind_some]
    split
    · rename_i hin
      obtain ⟨rfl, hle⟩ := hin
      have hout := h off hmap
      exact List.getElem?_eq_none (by omega)
    · rfl

/-- The byte at a guest address is the one at the buffer offset it translates to. -/
theorem guestByte_eq_map (s : State) (a : Addr) :
    s.guestByte a = (memTranslate s.cartSize a 1).map fun p => s.byte p.1 p.2 := by
  unfold State.guestByte
  cases memTranslate s.cartSize a 1 <;> rfl

/-- Settles O33: the byte an address resolves to, whatever the window, is none the write stores. -/
theorem writeLeavesOtherGuestBytesAlone : Obligations.WriteLeavesOtherGuestBytesAlone := by
  intro s addr data hwf
  refine ⟨_, exec_eq_next _ s, fun a ha => ?_⟩
  rw [guestByte_eq_map, guestByte_eq_map, after_cartSize]
  apply Option.map_congr
  rintro ⟨b, o⟩ hmap
  have hnone : storedByte s.cartSize b o (.memWrite addr data) = none :=
    writtenByte_eq_none fun off hoff => ha b off o hoff hmap
  rw [after_byte _ hwf, hnone, Option.getD_none]

/-- Writing the same bytes again leaves memory as the first write left it. -/
theorem memWrite_memWrite {c : Nat} {mem : Memory} (h : Memory.wf mem = true) (addr : Addr)
    (data : List Byte) :
    memWrite c (memWrite c mem addr data) addr data = memWrite c mem addr data := by
  have hwf := memWrite_wf (c := c) addr data h
  refine Memory.ext_of_wf (memWrite_wf addr data hwf) hwf fun b o => ?_
  rw [read_memWrite hwf, read_memWrite h]
  cases writtenByte c addr data b o <;> rfl

/-- Settles O35: a translation and a read store nothing, and a write stores the same bytes twice. -/
theorem memoryOperationsAreIdempotent : Obligations.MemoryOperationsAreIdempotent := by
  intro s hwf
  refine ⟨fun addr n => ?_, fun addr n => ?_, fun addr data => ?_⟩
  · rw [runOps_eq_next, runOps_eq_next]; rfl
  · rw [runOps_eq_next, runOps_eq_next]; rfl
  · rw [runOps_eq_next, runOps_eq_next]
    simp [State.answer, memWrite_memWrite hwf]

/-! ### Word views (rule R47) -/

theorem le16_toNat (b0 b1 : Byte) : (le16 b0 b1).toNat = b0.toNat + 256 * b1.toNat := by
  have h0 := b0.isLt
  have h1 := b1.isLt
  simp only [le16, BitVec.toNat_add, BitVec.toNat_mul, BitVec.toNat_setWidth, BitVec.reduceToNat]
  omega

theorem le32_toNat (b0 b1 b2 b3 : Byte) :
    (le32 b0 b1 b2 b3).toNat =
      b0.toNat + 2 ^ 8 * b1.toNat + 2 ^ 16 * b2.toNat + 2 ^ 24 * b3.toNat := by
  have h0 := b0.isLt
  have h1 := b1.isLt
  have h2 := b2.isLt
  have h3 := b3.isLt
  simp only [le32, BitVec.toNat_add, BitVec.toNat_mul, BitVec.toNat_setWidth, BitVec.reduceToNat]
  omega

/-- The byte of a word from a bit position on, as a number. -/
theorem extractByte_toNat {w : Nat} (v : BitVec w) (start : Nat) :
    (v.extractLsb' start 8).toNat = v.toNat / 2 ^ start % 2 ^ 8 := by
  rw [BitVec.extractLsb'_toNat, Nat.shiftRight_eq_div_pow]

theorem bytes16_le16 (b0 b1 : Byte) : bytes16 (le16 b0 b1) = [b0, b1] := by
  have h0 := b0.isLt
  have h1 := b1.isLt
  simp only [bytes16, List.cons.injEq, and_true, ← BitVec.toNat_inj, extractByte_toNat, le16_toNat]
  omega

theorem bytes32_le32 (b0 b1 b2 b3 : Byte) : bytes32 (le32 b0 b1 b2 b3) = [b0, b1, b2, b3] := by
  have h0 := b0.isLt
  have h1 := b1.isLt
  have h2 := b2.isLt
  have h3 := b3.isLt
  simp only [bytes32, List.cons.injEq, and_true, ← BitVec.toNat_inj, extractByte_toNat, le32_toNat]
  omega

theorem le16_bytes (v : BitVec 16) : le16 (v.extractLsb' 0 8) (v.extractLsb' 8 8) = v := by
  have hv := v.isLt
  simp only [← BitVec.toNat_inj, le16_toNat, extractByte_toNat]
  omega

theorem le32_bytes (v : Word) :
    le32 (v.extractLsb' 0 8) (v.extractLsb' 8 8) (v.extractLsb' 16 8) (v.extractLsb' 24 8) = v := by
  have hv := v.isLt
  simp only [← BitVec.toNat_inj, le32_toNat, extractByte_toNat]
  omega

/-- Settles O50, by arithmetic on the values of the bytes. -/
theorem wordViewsAreLittleEndian : Obligations.WordViewsAreLittleEndian :=
  ⟨fun b0 b1 => ⟨le16_toNat b0 b1, bytes16_le16 b0 b1⟩,
    fun b0 b1 b2 b3 => ⟨le32_toNat b0 b1 b2 b3, bytes32_le32 b0 b1 b2 b3⟩,
    fun v => ⟨_, _, rfl, le16_bytes v⟩, fun v => ⟨_, _, _, _, rfl, le32_bytes v⟩⟩

end Machine

end Sys2Proof

/-! Records and the address decode (30_encoding.md): the record of an operation read back, the operation
of a record written again, a step on a record, and the two-step decode of an address. -/

namespace Sys2Proof

/-! ### From an operation to its record and back (rules R65 and R72) -/

/-- Settles O1, by the operation: each kind of operand is read back number by number. -/
theorem decodeEncodeGivesCanonicalOperation : Obligations.DecodeEncodeGivesCanonicalOperation :=
  decode_encode

/-- The canonical form changes a mode operand only where it is the raw pattern of a mode. -/
theorem ModeOperand.canonical_eq_self_or (mo : ModeOperand) :
    mo.canonical = mo ∨ ∃ m, mo = .raw (modeEncode m) ∧ mo.canonical = .typed m := by
  cases mo with
  | typed m => exact .inl (canonical_typed m)
  | raw bits =>
    cases hm : modeOfBits? bits with
    | none => exact .inl (by simp [canonical, ofPattern, pattern, hm])
    | some m =>
      exact .inr ⟨m, by rw [modeOfBits?_eq_some.1 hm], by simp [canonical, ofPattern, pattern, hm]⟩

/-- Settles O2: the canonical mode operand names the mode that the operand names, and no other operand
changes. -/
theorem canonicalOperationRunsAlike : Obligations.CanonicalOperationRunsAlike := by
  refine ⟨fun i s => ?_, fun i => ?_⟩
  · rw [Machine.exec_eq_next, Machine.exec_eq_next, Machine.after_canonical]
  · cases i with
    | regRead idx mo =>
      obtain hself | ⟨m, hraw, hmode⟩ := mo.canonical_eq_self_or
      · exact .inl (congrArg (Instr.regRead idx) hself)
      · exact .inr ⟨idx, m, .inl ⟨congrArg (Instr.regRead idx) hraw,
          congrArg (Instr.regRead idx) hmode⟩⟩
    | regWrite idx mo v =>
      obtain hself | ⟨m, hraw, hmode⟩ := mo.canonical_eq_self_or
      · exact .inl (congrArg (Instr.regWrite idx · v) hself)
      · exact .inr ⟨idx, m, .inr ⟨v, congrArg (Instr.regWrite idx · v) hraw,
          congrArg (Instr.regWrite idx · v) hmode⟩⟩
    | _ => exact .inl rfl

/-! ### From a record to its operation and back (rules R72 and R89, decision D5) -/

/-- Bits 4–0 alone of a number are its mode pattern. -/
@[simp] theorem patternOperand_mod (x : Nat) : patternOperand (x % 32) = patternOperand x := by
  simp [← BitVec.toNat_inj, patternOperand]

theorem decodeRegRead_eq_ok {args : List Nat} {i : Instr} (h : decodeRegRead args = .ok i) :
    ∃ idx x, i = .regRead idx (.ofPattern (patternOperand x)) ∧ args = [idx, x] := by
  unfold decodeRegRead at h
  split at h
  · cases h; exact ⟨_, _, rfl, rfl⟩
  · cases h

theorem decodeRegWrite_eq_ok {args : List Nat} {i : Instr} (h : decodeRegWrite args = .ok i) :
    ∃ idx x, ∃ v : Word, i = .regWrite idx (.ofPattern (patternOperand x)) v ∧
      args = [idx, x, v.toNat] := by
  unfold decodeRegWrite at h
  split at h
  next idx x value =>
    cases hv : wordOperand 1 value with
    | error e => rw [hv] at h; cases h
    | ok v =>
      rw [hv] at h
      cases h
      exact ⟨idx, x, v, rfl, by rw [wordOperand_eq_ok hv]⟩
  next => cases h

theorem decodeModeDecode_eq_ok {args : List Nat} {i : Instr} (h : decodeModeDecode args = .ok i) :
    ∃ x, i = .modeDecode (patternOperand x) ∧ args = [x] := by
  unfold decodeModeDecode at h
  split at h
  · cases h; exact ⟨_, rfl, rfl⟩
  · cases h

theorem decodeMemWrite_eq_ok {args : List Nat} {i : Instr} (h : decodeMemWrite args = .ok i) :
    ∃ (a : Addr) (data : List Byte), i = .memWrite a data ∧
      args = a.toNat :: data.map BitVec.toNat := by
  unfold decodeMemWrite at h
  split at h
  next addr data =>
    split at h
    next a bs ha hbs =>
      cases h
      exact ⟨a, bs, rfl, by rw [wordOperand_eq_ok ha, bytesOperand_eq_ok hbs]⟩
    next => cases h
    next => cases h
  next => cases h

/-- The record of a status-word operation is the one it was decoded from. -/
theorem encode_of_decodePsr {op : BitVec 4} {mk : Word → Instr} {args : List Nat} {i : Instr}
    (henc : ∀ w, encode (mk w) = ⟨op, [w.toNat]⟩) (h : decodePsr op mk args = .ok i) :
    encode i = ⟨op, args⟩ := by
  obtain ⟨w, rfl, rfl⟩ := decodePsr_eq_ok h
  exact henc w

/-- The record of an address-and-size operation is the one it was decoded from. -/
theorem encode_of_decodeSpan {op : BitVec 4} {mk : Addr → Nat → Instr} {args : List Nat} {i : Instr}
    (henc : ∀ a n, encode (mk a n) = ⟨op, [a.toNat, n]⟩) (h : decodeSpan op mk args = .ok i) :
    encode i = ⟨op, args⟩ := by
  obtain ⟨a, n, rfl, rfl⟩ := decodeSpan_eq_ok h
  exact henc a n

/-- A record without over-wide mode patterns is the record of the operation it decodes to: the arms of
the decoder, by ordinal. -/
theorem encode_of_decode {r : Record} {i : Instr} (h : decode r = .ok i)
    (hfit : r.patternsFit = true) : encode i = r := by
  obtain ⟨⟨⟨op, hop⟩⟩, args⟩ := r
  interval_cases op
  · obtain ⟨idx, x, rfl, rfl⟩ := decodeRegRead_eq_ok h
    have hx : x < 32 := of_decide_eq_true hfit
    simp [encode, patternOperand_of_lt hx]
  · obtain ⟨idx, x, v, rfl, rfl⟩ := decodeRegWrite_eq_ok h
    have hx : x < 32 := of_decide_eq_true hfit
    simp [encode, patternOperand_of_lt hx]
  · obtain ⟨x, rfl, rfl⟩ := decodeModeDecode_eq_ok h
    have hx : x < 32 := of_decide_eq_true hfit
    simp [encode, patternOperand_of_lt hx]
  · exact encode_of_decodePsr (fun _ => rfl) h
  · exact encode_of_decodePsr (fun _ => rfl) h
  · exact encode_of_decodePsr (fun _ => rfl) h
  · exact encode_of_decodePsr (fun _ => rfl) h
  · exact encode_of_decodePsr (fun _ => rfl) h
  · exact encode_of_decodePsr (fun _ => rfl) h
  · exact encode_of_decodePsr (fun _ => rfl) h
  · exact encode_of_decodePsr (fun _ => rfl) h
  · exact encode_of_decodeSpan (fun _ _ => rfl) h
  · exact encode_of_decodeSpan (fun _ _ => rfl) h
  · obtain ⟨a, data, rfl, rfl⟩ := decodeMemWrite_eq_ok h
    rfl
  · cases h
  · cases h

/-- Settles O3, from the inversion of each arm of the decoder and the five bits of a mode pattern. -/
theorem recordOfDecodedOperationIsTheRecord : Obligations.RecordOfDecodedOperationIsTheRecord := by
  refine ⟨fun r i => encode_of_decode, fun idx x => ?_, fun idx x v => ?_, fun x => ?_⟩
  · change decodeRegRead [idx, x] = decodeRegRead [idx, x % 32]
    simp only [decodeRegRead, patternOperand_mod]
  · change decodeRegWrite [idx, x, v] = decodeRegWrite [idx, x % 32, v]
    simp only [decodeRegWrite, patternOperand_mod]
  · change decodeModeDecode [x] = decodeModeDecode [x % 32]
    simp only [decodeModeDecode, patternOperand_mod]

/-- Settles O5: the table's words by evaluation; each written-out record is its operation's record. -/
theorem writtenOutRecordsDecode : Obligations.WrittenOutRecordsDecode :=
  ⟨by decide,
    decode_encode (.regRead 13 (.typed .irq)),
    decode_encode (.regRead 0 (.raw 0b00000)),
    decode_encode (.regWrite 14 (.typed .supervisor) 0x08000124),
    decode_encode (.modeDecode 0b10010),
    decode_encode (.psrMode 0x6000001F),
    decode_encode (.memTranslate 0x03007FFC 4),
    decode_encode (.memRead 0x02000000 4),
    decode_encode (.memWrite 0x02000000 [0x78, 0x56])⟩

namespace Machine

/-! ### A step on a record (rules R71 and R143) -/

/-- An ordinal past 13 names no operation. -/
theorem decode_unassigned {op : BitVec 4} (h : op = 14 ∨ op = 15) (args : List Nat) :
    decode ⟨op, args⟩ = .error (.unassignedOrdinal op) := by
  obtain rfl | rfl := h
  · rfl
  · rfl

/-- Settles O4: such a record does not decode, and a step refuses it by the decoder's error. -/
theorem unassignedOrdinalsAreRefused : Obligations.UnassignedOrdinalsAreRefused :=
  fun _ hop args =>
    ⟨decode_unassigned hop args, fun _ _ hi => step_of_error hi (decode_unassigned hop args)⟩

/-- Settles O6, by what stands at the head of the inbox. -/
theorem stepRunsTheDecodedOperation : Obligations.StepRunsTheDecodedOperation :=
  fun _ => ⟨fun _ _ _ => step_of_decode, fun _ _ _ => step_of_error, step_of_nil⟩

/-! ### The two-step decode of an address (rule R69)

Step 1 gives each entry of the region table an aligned window of addresses, at least as long as the entry,
and the windows do not meet; step 2 takes the offset in that window. -/

/-- The length of the window of addresses that step 1 gives an entry. -/
def Region.window (r : Region) : Nat :=
  match r.buf with
  | .cart => 0x02000000
  | _ => 0x01000000

/-- Each entry begins at a multiple of its window's length and fits in the window, which is a whole number
of pages of `2 ^ 24` addresses. -/
theorem regionTable_windows : ∀ r ∈ regionTable,
    r.lo % r.window = 0 ∧ r.declared ≤ r.window ∧ r.window % 2 ^ 24 = 0 := by decide

theorem topByte_toNat (addr : Addr) : (addr.extractLsb' 24 8).toNat = addr.toNat / 2 ^ 24 := by
  have hlt := addr.isLt
  rw [extractByte_toNat]
  omega

theorem coarseOffset_eq_mod (r : Region) (addr : Addr) :
    coarseOffset r addr = addr.toNat % r.window := by
  obtain ⟨lo, declared, buf⟩ := r
  cases buf <;> simp [coarseOffset, Region.window, BitVec.extractLsb'_toNat]

/-- What step 1 selects is an entry of the table, in whose window the address lies. -/
theorem window_of_coarseSelect {addr : Addr} {r : Region} (h : coarseSelect addr = some r) :
    r ∈ regionTable ∧ r.lo ≤ addr.toNat ∧ addr.toNat < r.lo + r.window := by
  unfold coarseSelect at h
  rw [topByte_toNat] at h
  split at h
  all_goals cases h
  all_goals exact ⟨by decide, by simp only; omega, by simp only [Region.window]; omega⟩

/-- Step 1 reads the top byte of an address alone. -/
theorem coarseSelect_congr {addr addr' : Addr} (h : addr.toNat / 2 ^ 24 = addr'.toNat / 2 ^ 24) :
    coarseSelect addr = coarseSelect addr' := by
  simp only [coarseSelect, topByte_toNat, h]

/-- Step 1 selects an entry at the first address of each page of its window. -/
theorem coarseSelect_page : ∀ r ∈ regionTable, ∀ k < r.window / 2 ^ 24,
    coarseSelect (BitVec.ofNat 32 (r.lo + k * 2 ^ 24)) = some r := by decide

/-- Step 1 selects the entry in whose window the address lies. -/
theorem coarseSelect_of_window {addr : Addr} {r : Region} (hr : r ∈ regionTable)
    (hlo : r.lo ≤ addr.toNat) (hhi : addr.toNat < r.lo + r.window) :
    coarseSelect addr = some r := by
  obtain ⟨hmul, -, hpages⟩ := regionTable_windows r hr
  have halign : r.lo % 2 ^ 24 = 0 :=
    Nat.mod_eq_zero_of_dvd ((Nat.dvd_of_mod_eq_zero hpages).trans (Nat.dvd_of_mod_eq_zero hmul))
  have hlt := addr.isLt
  rw [← coarseSelect_page r hr ((addr.toNat - r.lo) / 2 ^ 24) (by omega)]
  apply coarseSelect_congr
  rw [BitVec.toNat_ofNat]
  omega

/-- An entry that covers the address is the one step 1 selects. -/
theorem coarseSelect_of_covers {c : Nat} {addr : Addr} {r : Region} (hr : r ∈ regionTable)
    (hc : r.covers c addr.toNat = true) : coarseSelect addr = some r := by
  obtain ⟨hlo, hlt⟩ := (Region.covers_iff ..).1 hc
  have hdecl := Region.effLen_le_declared c r
  obtain ⟨-, hwin, -⟩ := regionTable_windows r hr
  exact coarseSelect_of_window hr hlo (by omega)

/-- Step 2's offset in the selected entry is the distance from its first address. -/
theorem coarseOffset_of_select {addr : Addr} {r : Region} (h : coarseSelect addr = some r) :
    coarseOffset r addr = addr.toNat - r.lo := by
  obtain ⟨hr, hlo, hhi⟩ := window_of_coarseSelect h
  obtain ⟨k, hk⟩ := Nat.dvd_of_mod_eq_zero (regionTable_windows r hr).1
  rw [coarseOffset_eq_mod]
  conv_lhs => rw [show addr.toNat = addr.toNat - r.lo + r.window * k by omega]
  rw [Nat.add_mul_mod_self_left, Nat.mod_eq_of_lt (by omega)]

theorem coarseTranslate_of_none {addr : Addr} (c n : Nat) (h : coarseSelect addr = none) :
    coarseTranslate c addr n = none := by
  simp only [coarseTranslate, h]

/-- Step 2 makes the two checks of the scan: the selected entry covers the address and holds the span. -/
theorem coarseTranslate_of_some {addr : Addr} {r : Region} (c n : Nat)
    (h : coarseSelect addr = some r) :
    coarseTranslate c addr n =
      if r.covers c addr.toNat = true ∧ r.contains c addr.toNat n = true then
        some (r.buf, addr.toNat - r.lo) else none := by
  obtain ⟨-, hlo, -⟩ := window_of_coarseSelect h
  simp only [coarseTranslate, h, coarseOffset_of_select h, Region.covers_iff, Region.contains_iff,
    hlo, true_and]

/-- Settles O27: the entry that covers the address is the one step 1 selects, so both decodes make the
same checks on the same entry. -/
theorem twoStepDecodeIsTheScan : Obligations.TwoStepDecodeIsTheScan := by
  intro c addr n
  by_cases hcov : ∃ r ∈ regionTable, r.covers c addr.toNat = true
  · obtain ⟨r, hr, hc⟩ := hcov
    rw [coarseTranslate_of_some c n (coarseSelect_of_covers hr hc), memTranslate_of_covers n hr hc]
    simp only [hc, true_and]
  · have hnone : ∀ r ∈ regionTable, r.covers c addr.toNat = false := by
      simpa using hcov
    rw [memTranslate_of_uncovered n hnone]
    cases hsel : coarseSelect addr with
    | none => exact coarseTranslate_of_none c n hsel
    | some r =>
      obtain ⟨hr, -, -⟩ := window_of_coarseSelect hsel
      simp [coarseTranslate_of_some c n hsel, hnone r hr]

end Machine

end Sys2Proof

/-! The register bank operations (40_register_bank_ops.md): the slot that an index and a mode
operand name, what a read answers and a write stores there, and how two writes compose. -/

namespace Sys2Proof

/-! ### The strict reading of a mode pattern (rules R64, R84 and R85) -/

theorem modeOfBits?_eq_none {bits : Mode5} :
    modeOfBits? bits = none ↔ ∀ m, bits ≠ modeEncode m := by
  simp only [Option.eq_none_iff_forall_ne_some, Ne, modeOfBits?_eq_some]

@[simp] theorem ModeOperand.canonical_raw_modeEncode (m : Mode) :
    (ModeOperand.raw (modeEncode m)).canonical = .typed m := by
  simp [canonical, ofPattern, pattern]

namespace Machine

/-! ### The slot of an access -/

@[simp] theorem writtenSlot_typed (i : Fin 18) (m : Mode) :
    writtenSlot i (.typed m) = some (slot i m) := by simp [writtenSlot]

theorem writtenSlot_typed_of_gt {idx : Nat} (h : 17 < idx) (m : Mode) :
    writtenSlot idx (.typed m) = none := by simp [writtenSlot, resolve_of_gt h]

theorem writtenSlot_raw_of_unrecognized {bits : Mode5} (h : ∀ m, bits ≠ modeEncode m) (idx : Nat) :
    writtenSlot idx (.raw bits) = none := by simp [writtenSlot, modeOfBits?_eq_none.2 h]

/-! ### Reads (rules R82 and R84) -/

/-- A read changes nothing but the answer, and answers the word of the slot it resolves to. -/
theorem exec_regRead (idx : Nat) (mo : ModeOperand) (s : State) :
    exec (.regRead idx mo) s =
      .next { s with out := some (.word ((writtenSlot idx mo).map s.reg)) } := by
  rw [exec_eq_next, after_regRead, regReadOp_eq_writtenSlot]
  rfl

theorem exec_regRead_typed (i : Fin 18) (m : Mode) (s : State) :
    exec (.regRead i (.typed m)) s =
      .next { s with out := some (.word (some (s.reg (slot i m)))) } := by
  rw [exec_regRead, writtenSlot_typed, Option.map_some]

theorem exec_regRead_of_none {idx : Nat} {mo : ModeOperand} (h : writtenSlot idx mo = none)
    (s : State) : exec (.regRead idx mo) s = .next { s with out := some (.word none) } := by
  rw [exec_regRead, h, Option.map_none]

/-- Settles O9: the slot of the pair is the one the read resolves to, and an index above 17 has
none. -/
theorem regReadAnswersTheSlot : Obligations.RegReadAnswersTheSlot :=
  fun s m => ⟨fun _ => rfl, fun i => exec_regRead_typed i m s,
    fun _ h => exec_regRead_of_none (writtenSlot_typed_of_gt h m) s⟩

/-! ### Writes (rules R83 and R85) -/

/-- A write that resolves to no slot changes nothing and reports nothing. -/
theorem exec_regWrite_of_none {idx : Nat} {mo : ModeOperand} (h : writtenSlot idx mo = none)
    (v : Word) (s : State) :
    exec (.regWrite idx mo v) s = .next { s with out := some .written } := by
  have hregs : regWriteOp s.regs idx mo v = s.regs :=
    RegFile.ext_slots fun r => by simp [readSlot_regWriteOp, h]
  rw [exec_eq_next, after_regWrite, hregs]
  rfl

theorem after_regWrite_reg (idx : Nat) (mo : ModeOperand) (v : Word) (s : State) (r : Fin 38) :
    (after (.regWrite idx mo v) s).reg r = if writtenSlot idx mo = some r then v else s.reg r :=
  readSlot_regWriteOp s.regs idx mo v r

/-- A write leaves every slot but the one it resolves to as it was. -/
theorem after_regWrite_reg_of_ne {idx : Nat} {mo : ModeOperand} {r : Fin 38}
    (h : writtenSlot idx mo ≠ some r) (v : Word) (s : State) :
    (after (.regWrite idx mo v) s).reg r = s.reg r := by
  rw [after_regWrite_reg, if_neg h]

/-- The slot of the pair holds all 32 bits of the value after a write. -/
theorem after_regWrite_reg_slot (i : Fin 18) (m : Mode) (v : Word) (s : State) :
    (after (.regWrite i (.typed m) v) s).reg (slot i m) = v := by
  rw [after_regWrite_reg, if_pos (writtenSlot_typed i m)]

theorem after_regWrite_reg_of_ne_slot {i : Fin 18} {m : Mode} {r : Fin 38} (h : r ≠ slot i m)
    (v : Word) (s : State) : (after (.regWrite i (.typed m) v) s).reg r = s.reg r := by
  apply after_regWrite_reg_of_ne
  rw [writtenSlot_typed]
  exact fun e => h (Option.some.inj e).symm

/-- Settles O10: the state after the write, slot by slot; an index above 17 resolves to no slot. -/
theorem regWriteOverwritesTheSlot : Obligations.RegWriteOverwritesTheSlot :=
  fun s m v => ⟨fun _ => rfl,
    fun i => ⟨_, exec_eq_next _ s, after_regWrite_reg_slot i m v s,
      fun _ h => after_regWrite_reg_of_ne_slot h v s, rfl, rfl, rfl, rfl⟩,
    fun _ h => exec_regWrite_of_none (writtenSlot_typed_of_gt h m) v s⟩

/-- An operation runs as its canonical form does. -/
theorem exec_eq_of_canonical_eq {i j : Instr} (h : i.canonical = j) (s : State) :
    exec i s = exec j s := by
  rw [← h, canonicalOperationRunsAlike.1]

/-- Settles O11: the raw pattern of a mode has the typed mode as its canonical operand, and any
other pattern resolves to no slot. -/
theorem rawPatternIsRecognizedStrictly : Obligations.RawPatternIsRecognizedStrictly := by
  refine fun s idx v => ⟨fun m => ?_, fun bits h => ?_⟩
  · have hmode := ModeOperand.canonical_raw_modeEncode m
    have hread : (Instr.regRead idx (.raw (modeEncode m))).canonical = .regRead idx (.typed m) :=
      congrArg (Instr.regRead idx) hmode
    have hwrite : (Instr.regWrite idx (.raw (modeEncode m)) v).canonical =
        .regWrite idx (.typed m) v := congrArg (Instr.regWrite idx · v) hmode
    exact ⟨exec_eq_of_canonical_eq hread s, exec_eq_of_canonical_eq hwrite s⟩
  · have hnone := writtenSlot_raw_of_unrecognized h idx
    exact ⟨exec_regRead_of_none hnone s, exec_regWrite_of_none hnone v s⟩

/-! ### A read after a write (rules R86 and R87) -/

/-- After a write every pair with the written slot reads the value. -/
theorem exec_regRead_after_regWrite_of_slot_eq {i i' : Fin 18} {m m' : Mode}
    (h : slot i' m' = slot i m) (v : Word) (s : State) :
    exec (.regRead i' (.typed m')) (after (.regWrite i (.typed m) v) s) =
      .next { after (.regWrite i (.typed m) v) s with out := some (.word (some v)) } := by
  rw [exec_regRead_typed, h, after_regWrite_reg_slot]

/-- After a write every pair with another slot reads the word that its slot held before. -/
theorem exec_regRead_after_regWrite_of_slot_ne {i i' : Fin 18} {m m' : Mode}
    (h : slot i' m' ≠ slot i m) (v : Word) (s : State) :
    exec (.regRead i' (.typed m')) (after (.regWrite i (.typed m) v) s) =
      .next { after (.regWrite i (.typed m) v) s with
        out := some (.word (some (s.reg (slot i' m')))) } := by
  rw [exec_regRead_typed, after_regWrite_reg_of_ne_slot h]

/-- Settles O12: which of two pairs sees the other's write is decided by their slots alone. -/
theorem bankingSymmetry : Obligations.BankingSymmetry :=
  fun s _ _ v => ⟨_, exec_eq_next _ s, exec_regRead_after_regWrite_of_slot_eq rfl v s,
    fun _ _ h => exec_regRead_after_regWrite_of_slot_eq h v s,
    fun i' m' h => ⟨_, exec_regRead_typed i' m' s, exec_regRead_after_regWrite_of_slot_ne h v s⟩⟩

/-- Slot 32 is the saved status word of User and System: a slot gives its index back, and index 17
has one slot per bank. -/
theorem slot_eq_thirtytwo_iff (i : Fin 18) (m : Mode) :
    slot i m = 32 ↔ i = 17 ∧ (m = .user ∨ m = .system) := by
  have huser : slot 17 .user = 32 := rfl
  have hbank : slot 17 m = 32 ↔ m = .user ∨ m = .system := by
    rw [← huser, slot_banked_eq_iff (.inr (.inr rfl)), bank_eq_iff]
    simp
  constructor
  · intro h
    obtain rfl : i = 17 := index_eq_of_slot_eq (h.trans huser.symm)
    exact ⟨rfl, hbank.1 h⟩
  · rintro ⟨rfl, hm⟩
    exact hbank.2 hm

/-- Settles O13: index 17 has slot 32 under User and System and another slot under the five other
modes. -/
theorem savedStatusOfUserAndSystem : Obligations.SavedStatusOfUserAndSystem := by
  have hslot : ∀ m, m = .user ∨ m = .system → slot 17 m = 32 :=
    fun m hm => (slot_eq_thirtytwo_iff 17 m).2 ⟨rfl, hm⟩
  refine fun s v => ⟨slot_eq_thirtytwo_iff, fun m hm => ?_, fun m huser hsystem => ?_⟩
  · refine ⟨_, exec_eq_next _ s, ?_, fun r hr => ?_, fun m' hm' => ?_⟩
    · rw [← hslot m hm]
      exact after_regWrite_reg_slot 17 m v s
    · rw [← hslot m hm] at hr
      exact after_regWrite_reg_of_ne_slot hr v s
    · exact exec_regRead_after_regWrite_of_slot_eq ((hslot m' hm').trans (hslot m hm).symm) v s
  · refine ⟨_, exec_eq_next _ s, after_regWrite_reg_of_ne_slot (i := 17) (m := m) (fun h => ?_) v s⟩
    obtain ⟨-, hm⟩ := (slot_eq_thirtytwo_iff 17 m).1 h.symm
    exact hm.elim huser hsystem

/-! ### Two writes (rule R88) -/

/-- Writes with different targets commute: no slot is the target of both. -/
theorem regWriteOp_comm {idx idx' : Nat} {mo mo' : ModeOperand}
    (h : writtenSlot idx mo ≠ writtenSlot idx' mo') (v v' : Word) (regs : RegFile) :
    regWriteOp (regWriteOp regs idx mo v) idx' mo' v' =
      regWriteOp (regWriteOp regs idx' mo' v') idx mo v := by
  apply RegFile.ext_slots
  intro r
  simp only [readSlot_regWriteOp]
  by_cases hr : writtenSlot idx mo = some r
  · have hr' : writtenSlot idx' mo' ≠ some r := fun e => h (hr.trans e.symm)
    rw [if_neg hr', if_pos hr, if_pos hr]
  · rw [if_neg hr, if_neg hr]

/-- Of two writes with the same target the later value stands. -/
theorem regWriteOp_overwrite {idx idx' : Nat} {mo mo' : ModeOperand}
    (h : writtenSlot idx mo = writtenSlot idx' mo') (v v' : Word) (regs : RegFile) :
    regWriteOp (regWriteOp regs idx mo v) idx' mo' v' = regWriteOp regs idx' mo' v' := by
  apply RegFile.ext_slots
  intro r
  simp only [readSlot_regWriteOp, h]
  split
  · rfl
  · rfl

/-- A run of two writes leaves the storage that the two leave one after the other. -/
theorem runOps_two_regWrites (idx idx' : Nat) (mo mo' : ModeOperand) (v v' : Word) (s : State) :
    runOps [.regWrite idx mo v, .regWrite idx' mo' v'] s =
      .next (State.answer
        { s with regs := regWriteOp (regWriteOp s.regs idx mo v) idx' mo' v' } .written) :=
  runOps_eq_next _ s

/-- Settles O14: the frames from what one operation leaves in each slot, the composition of two
writes from the storage they leave. -/
theorem registerBankFrame : Obligations.RegisterBankFrame := by
  refine ⟨fun s idx mo => ⟨_, exec_regRead idx mo s⟩,
    fun s idx mo v =>
      ⟨_, exec_eq_next _ s, fun _ h => after_regWrite_reg_of_ne h v s, rfl, rfl, rfl⟩,
    fun s idx mo v idx' mo' v' h => ?_, fun s idx mo v idx' mo' v' h => ?_⟩
  · rw [runOps_two_regWrites, runOps_two_regWrites, regWriteOp_comm h]
  · rw [runOps_two_regWrites, regWriteOp_overwrite h, runOps_eq_next]
    rfl

end Machine

end Sys2Proof

/-! Mode decode and the status-register queries (41_mode_psr_ops.md): what a pattern decodes to,
what each query answers for a word, and which bits of a word decide it. -/

namespace Sys2Proof.Machine

/-! ### Mode decode (rule R89) -/

/-- A pattern of none of the seven modes misses every test of `MODE_DECODE`. -/
theorem modeDecode_of_unrecognized {bits : Mode5} (h : ∀ m, bits ≠ modeEncode m) :
    modeDecode bits = .undefined := by
  unfold modeDecode
  rw [if_neg (show bits ≠ 0b10000 from h .user), if_neg (show bits ≠ 0b10001 from h .fiq),
    if_neg (show bits ≠ 0b10010 from h .irq), if_neg (show bits ≠ 0b10011 from h .supervisor),
    if_neg (show bits ≠ 0b10111 from h .abort), if_neg (show bits ≠ 0b11011 from h .undefined),
    if_neg (show bits ≠ 0b11111 from h .system)]

theorem exec_modeDecode (bits : Mode5) (s : State) :
    exec (.modeDecode bits) s = .next { s with out := some (.mode (modeDecode bits)) } := rfl

theorem exec_modeDecode_modeEncode (m : Mode) (s : State) :
    exec (.modeDecode (modeEncode m)) s = .next { s with out := some (.mode m) } := by
  rw [exec_modeDecode, modeDecode_modeEncode]

theorem exec_modeDecode_of_unrecognized {bits : Mode5} (h : ∀ m, bits ≠ modeEncode m) (s : State) :
    exec (.modeDecode bits) s = .next { s with out := some (.mode .undefined) } := by
  rw [exec_modeDecode, modeDecode_of_unrecognized h]

/-- Settles O18: a pattern is one of the seven modes' or misses every test; the patterns that give
`Undefined` are counted by evaluation. -/
theorem modeDecodeNeverRejects : Obligations.ModeDecodeNeverRejects :=
  ⟨rfl, fun s m => exec_modeDecode_modeEncode m s,
    fun s _ h => exec_modeDecode_of_unrecognized h s, by decide, fun _ => rfl⟩

/-! ### The flag queries (rules R90 to R96) -/

/-- A bit of a word is set where masking with that bit alone leaves something. -/
theorem getLsbD_eq_and_twoPow_bne (w : Word) {i : Nat} (hi : i < 32) :
    w.getLsbD i = (w &&& BitVec.twoPow 32 i != 0) := by
  have hmask : BitVec.twoPow 32 i ≠ 0 := by
    intro h
    simpa [hi] using congrArg (BitVec.getLsbD · i) h
  rw [BitVec.and_twoPow]
  cases w.getLsbD i with
  | true => simpa using hmask
  | false => simp

theorem psrN_eq_and_bne (w : Word) : psrN w = (w &&& 0x80000000 != 0) :=
  getLsbD_eq_and_twoPow_bne w (i := 31) (by decide)
theorem psrZ_eq_and_bne (w : Word) : psrZ w = (w &&& 0x40000000 != 0) :=
  getLsbD_eq_and_twoPow_bne w (i := 30) (by decide)
theorem psrC_eq_and_bne (w : Word) : psrC w = (w &&& 0x20000000 != 0) :=
  getLsbD_eq_and_twoPow_bne w (i := 29) (by decide)
theorem psrV_eq_and_bne (w : Word) : psrV w = (w &&& 0x10000000 != 0) :=
  getLsbD_eq_and_twoPow_bne w (i := 28) (by decide)
theorem psrI_eq_and_bne (w : Word) : psrI w = (w &&& 0x00000080 != 0) :=
  getLsbD_eq_and_twoPow_bne w (i := 7) (by decide)
theorem psrF_eq_and_bne (w : Word) : psrF w = (w &&& 0x00000040 != 0) :=
  getLsbD_eq_and_twoPow_bne w (i := 6) (by decide)
theorem psrT_eq_and_bne (w : Word) : psrT w = (w &&& 0x00000020 != 0) :=
  getLsbD_eq_and_twoPow_bne w (i := 5) (by decide)

/-- Settles O19: each query answers its bit of the word, which is what its mask tests. -/
theorem flagQueriesTestTheirMask : Obligations.FlagQueriesTestTheirMask := by
  intro s w
  rw [← psrN_eq_and_bne, ← psrZ_eq_and_bne, ← psrC_eq_and_bne, ← psrV_eq_and_bne,
    ← psrI_eq_and_bne, ← psrF_eq_and_bne, ← psrT_eq_and_bne]
  exact ⟨rfl, rfl, rfl, rfl, rfl, rfl, rfl, rfl⟩

/-- The flag queries, each with its mask. -/
def flagQueries : List (Word × (Word → Instr)) :=
  [(0x80000000, .psrN), (0x40000000, .psrZ), (0x20000000, .psrC), (0x10000000, .psrV),
    (0x00000080, .psrI), (0x00000040, .psrF), (0x00000020, .psrT)]

theorem flagQueries_mask_ne_zero : ∀ q ∈ flagQueries, q.1 ≠ 0 := by decide

theorem exec_flagQuery {q : Word × (Word → Instr)} (hq : q ∈ flagQueries) (w : Word) (s : State) :
    exec (q.2 w) s = .next { s with out := some (.flag (w &&& q.1 != 0)) } := by
  obtain ⟨-, hN, hZ, hC, hV, hI, hF, hT⟩ := flagQueriesTestTheirMask s w
  simp only [flagQueries, List.mem_cons, List.not_mem_nil, or_false] at hq
  obtain rfl | rfl | rfl | rfl | rfl | rfl | rfl := hq
  exacts [hN, hZ, hC, hV, hI, hF, hT]

/-! ### The mode query (rule R97) -/

/-- `PSR_MODE` is `MODE_DECODE` of the word's raw mode field. -/
theorem exec_psrMode (w : Word) (s : State) :
    exec (.psrMode w) s = exec (.modeDecode (psrField w)) s := rfl

@[simp] theorem psrField_append (high : BitVec 27) (bits : Mode5) :
    psrField (high ++ bits) = bits :=
  BitVec.extractLsb'_append_eq_right

theorem psrField_and_mask (w : Word) : psrField (w &&& 0x0000001F) = psrField w := by
  have hmask : psrField 0x0000001F = BitVec.allOnes 5 := rfl
  calc psrField (w &&& 0x0000001F) = psrField w &&& psrField 0x0000001F := BitVec.extractLsb'_and
    _ = psrField w := by rw [hmask, BitVec.and_allOnes]

theorem toNat_append_modeField (high : BitVec 27) (bits : Mode5) :
    (high ++ bits).toNat = 32 * high.toNat + bits.toNat := by
  rw [BitVec.toNat_append, ← Nat.shiftLeft_add_eq_or_of_lt bits.isLt, Nat.shiftLeft_eq,
    Nat.mul_comm]

/-- Settles O20: the low five bits are the mode field, which mode decode reads. -/
theorem psrModeDecodesTheModeField : Obligations.PsrModeDecodesTheModeField := by
  intro s high
  have hexec (bits : Mode5) : exec (.psrMode (high ++ bits)) s = exec (.modeDecode bits) s := by
    rw [exec_psrMode, psrField_append]
  refine ⟨fun bits => ⟨?_, hexec bits⟩, fun m => ?_, fun bits h => ?_⟩
  · rw [← toNat_append_modeField]
    rfl
  · rw [hexec, exec_modeDecode_modeEncode]
  · rw [hexec, exec_modeDecode_of_unrecognized h]

/-! ### What the queries read (rules R98 to R100) -/

/-- Settles O21: a flag query answers from the masked word, `PSR_MODE` from the mode field, which is
all that its mask leaves; no answer is taken from the state. -/
theorem queriesReadOnlyTheirMask : Obligations.QueriesReadOnlyTheirMask := by
  refine fun s s' => ⟨fun q hq w w' h => ?_,
    fun bits => ⟨_, exec_modeDecode bits s, exec_modeDecode bits s'⟩⟩
  obtain hflag | hmode :=
    List.mem_append.1 (show q ∈ flagQueries ++ [(0x0000001F, .psrMode)] from hq)
  · refine ⟨_, exec_flagQuery hflag w s, ?_⟩
    rw [exec_flagQuery hflag, h]
  · obtain rfl := List.mem_singleton.1 hmode
    have hfield : psrField w = psrField w' := by
      rw [← psrField_and_mask w, h, psrField_and_mask]
    refine ⟨_, exec_modeDecode (psrField w) s, ?_⟩
    rw [exec_psrMode, exec_modeDecode, hfield]

theorem getLsbD_psrField (w : Word) {i : Nat} (hi : i < 5) :
    (psrField w).getLsbD i = w.getLsbD i := by
  simp [psrField, hi]

theorem getLsbD_psrUninterpreted (w : Word) {i : Nat} (hlo : 8 ≤ i) (hhi : i < 28) :
    (psrUninterpreted w).getLsbD (i - 8) = w.getLsbD i := by
  have hsub : i - 8 < 20 := by omega
  simp [psrUninterpreted, hsub, Nat.add_sub_cancel' hlo]

/-- Settles O22: each of the 32 bits is in one of the fields; and bit 8 is in none that a query
reads. -/
theorem statusWordIsItsFields : Obligations.StatusWordIsItsFields := by
  refine ⟨fun w w' hN hZ hC hV hI hF hT hfield hrest => ?_, 0x00000000, 0x00000100, by decide⟩
  refine BitVec.eq_of_getLsbD_eq fun i hi => ?_
  have hbit : i < 5 ∨ i = 5 ∨ i = 6 ∨ i = 7 ∨ (8 ≤ i ∧ i < 28) ∨
      i = 28 ∨ i = 29 ∨ i = 30 ∨ i = 31 := by omega
  obtain hlow | rfl | rfl | rfl | ⟨hlo, hhi⟩ | rfl | rfl | rfl | rfl := hbit
  · rw [← getLsbD_psrField w hlow, hfield, getLsbD_psrField w' hlow]
  · exact hT
  · exact hF
  · exact hI
  · rw [← getLsbD_psrUninterpreted w hlo hhi, hrest, getLsbD_psrUninterpreted w' hlo hhi]
  · exact hV
  · exact hC
  · exact hZ
  · exact hN

/-- Settles O23: masking the zero word leaves zero, and masking the word of all ones leaves the
mask. -/
theorem queriesOfAllZerosAndAllOnes : Obligations.QueriesOfAllZerosAndAllOnes := by
  refine fun s => ⟨fun q hq => ?_, ?_, exec_modeDecode_modeEncode .system s⟩
  · obtain ⟨⟨mask, _⟩, hmem, rfl⟩ := List.mem_map.1 (show q ∈ flagQueries.map Prod.snd from hq)
    have hmask : mask ≠ 0 := flagQueries_mask_ne_zero _ hmem
    have hones : (0xFFFFFFFF : Word) &&& mask = mask := BitVec.allOnes_and
    refine ⟨?_, ?_⟩
    · rw [exec_flagQuery hmem]
      simp
    · rw [exec_flagQuery hmem, hones, bne_iff_ne.2 hmask]
  · exact exec_modeDecode_of_unrecognized (bits := 0) (fun m => by cases m <;> decide) s

end Sys2Proof.Machine

/-! The address decoder operations (42_address_decoder_ops.md): what a translation, a read and a write
answer and leave unchanged by where their span lies, the three cartridge windows as one buffer, and the
edges of every entry of the region table. -/

namespace Sys2Proof.Machine

/-! ### Translation (rule R104) -/

/-- Inside an entry's effective range the end of the span alone decides. -/
theorem memTranslate_of_inRange {c : Nat} {addr : Addr} (n : Nat) {r : Region}
    (hr : r ∈ regionTable) (hlo : r.lo ≤ addr.toNat) (hlt : addr.toNat - r.lo < r.effLen c) :
    memTranslate c addr n =
      if addr.toNat - r.lo + n ≤ r.effLen c then some (r.buf, addr.toNat - r.lo) else none := by
  rw [memTranslate_of_covers n hr ((Region.covers_iff ..).2 ⟨hlo, hlt⟩)]
  simp only [Region.contains_iff]

theorem exec_memTranslate (addr : Addr) (n : Nat) (s : State) :
    exec (.memTranslate addr n) s =
      .next { s with out := some (.mapping (memTranslate s.cartSize addr n)) } :=
  exec_eq_next _ s

/-- Settles O25: the entry that covers the start address decides by the end of the span, and without one
nothing is mapped. -/
theorem translateGivesBufferAndOffset : Obligations.TranslateGivesBufferAndOffset := by
  intro s addr n
  refine ⟨rfl, fun r hr hlo hlt => ⟨fun hfits => ?_, fun hpast => ?_⟩, fun hnone => ?_⟩
  · rw [exec_memTranslate, memTranslate_of_inRange n hr hlo hlt, if_pos hfits]
  · rw [exec_memTranslate, memTranslate_of_inRange n hr hlo hlt, if_neg (Nat.not_le.2 hpast)]
  · have hmap : memTranslate s.cartSize addr n = none :=
      memTranslate_of_uncovered n fun r hr =>
        Bool.eq_false_iff.2 (mt (Region.covers_iff ..).1 (hnone r hr))
    rw [exec_memTranslate, hmap]

/-! ### Reads (rule R105) -/

theorem exec_memRead (addr : Addr) (n : Nat) (s : State) :
    exec (.memRead addr n) s =
      .next { s with out := some (.bytes (memRead s.cartSize s.mem addr n)) } :=
  exec_eq_next _ s

/-- A read of a mapped span answers the bytes of its buffer from its offset on. -/
theorem exec_memRead_of_some {s : State} {addr : Addr} {n : Nat} {b : BufId} {off : Nat}
    (h : memTranslate s.cartSize addr n = some (b, off)) :
    exec (.memRead addr n) s =
      .next { s with out := some (.bytes (some (Buffer.readBytes (Memory.buf s.mem b) off n))) } := by
  rw [exec_memRead, memRead_of_some h]

/-- Settles O31: the bytes of a mapped span by position, and no data where nothing is mapped. -/
theorem readAnswersTheWholeSpanOrNothing : Obligations.ReadAnswersTheWholeSpanOrNothing := by
  intro s addr n
  refine ⟨rfl, fun b off hmap => ⟨_, exec_memRead_of_some hmap, Buffer.readBytes_length .., ?_⟩,
    fun hnone => ?_⟩
  · intro j hj
    rw [Buffer.readBytes_getElem?, if_pos hj]
    rfl
  · rw [exec_memRead, memRead_of_none hnone]

/-! ### Writes (rule R106) -/

/-- Inside its translated span a write stores the sequence's bytes in order. -/
theorem writtenByte_eq_getElem? {c : Nat} {addr : Addr} {data : List Byte} {b : BufId} {off : Nat}
    (h : memTranslate c addr data.length = some (b, off)) (j : Nat) :
    writtenByte c addr data b (off + j) = data[j]? := by
  simp [writtenByte, h]

/-- After a write every byte of the span holds the sequence's byte at its position. -/
theorem after_memWrite_byte {s : State} (hwf : Memory.wf s.mem = true) {addr : Addr}
    {data : List Byte} {b : BufId} {off : Nat}
    (h : memTranslate s.cartSize addr data.length = some (b, off)) (j : Nat) :
    (after (.memWrite addr data) s).byte b (off + j) = (data[j]?).getD (s.byte b (off + j)) := by
  rw [after_byte _ hwf, storedByte, writtenByte_eq_getElem? h]

/-- A write leaves every byte outside its translated span as it was. -/
theorem after_memWrite_byte_of_outside {s : State} (hwf : Memory.wf s.mem = true) {addr : Addr}
    {data : List Byte} {b b' : BufId} {off o : Nat}
    (h : memTranslate s.cartSize addr data.length = some (b, off))
    (hout : b' ≠ b ∨ o < off ∨ off + data.length ≤ o) :
    (after (.memWrite addr data) s).byte b' o = s.byte b' o := by
  have hnone : writtenByte s.cartSize addr data b' o = none := by
    refine writtenByte_eq_none fun off' h' => ?_
    obtain ⟨rfl, rfl⟩ := Prod.mk.inj (Option.some.inj (h.symm.trans h'))
    exact hout.resolve_left fun hne => hne rfl
  rw [after_byte _ hwf, storedByte, hnone, Option.getD_none]

theorem after_memWrite_out_of_some {s : State} {addr : Addr} {data : List Byte} {p : BufId × Nat}
    (h : memTranslate s.cartSize addr data.length = some p) :
    (after (.memWrite addr data) s).out = some (.stored true) := by
  rw [after_memWrite, answer_out, memWriteOk_of_some h]

/-- A write of a span that is not mapped changes nothing and reports failure. -/
theorem exec_memWrite_of_none {s : State} {addr : Addr} {data : List Byte}
    (h : memTranslate s.cartSize addr data.length = none) :
    exec (.memWrite addr data) s = .next { s with out := some (.stored false) } := by
  rw [exec_eq_next, after_memWrite, memWriteOk_of_none h, memWrite_of_none h]
  rfl

/-- Settles O32: the state after the write, byte by byte; a span that is not mapped stores nothing. -/
theorem writeStoresTheWholeSpanOrNothing : Obligations.WriteStoresTheWholeSpanOrNothing := by
  intro s addr data hwf
  refine ⟨rfl, fun b off hmap => ⟨_, exec_eq_next _ s, after_memWrite_out_of_some hmap,
    fun j v hv => ?_, fun b' o hout => after_memWrite_byte_of_outside hwf hmap hout,
    rfl, after_cartSize _ s, after_inbox _ s⟩, exec_memWrite_of_none⟩
  rw [after_memWrite_byte hwf hmap, hv, Option.getD_some]

/-! ### A read after a write (rule R107) -/

/-- What is written is read back at any address that resolves to the same buffer offset. -/
theorem exec_memRead_after_memWrite {s : State} (hwf : Memory.wf s.mem = true) {addr addr' : Addr}
    {data : List Byte} {b : BufId} {off : Nat}
    (h : memTranslate s.cartSize addr data.length = some (b, off))
    (h' : memTranslate s.cartSize addr' data.length = some (b, off)) :
    exec (.memRead addr' data.length) (after (.memWrite addr data) s) =
      .next { after (.memWrite addr data) s with out := some (.bytes (some data)) } := by
  have hbuf : Memory.buf (after (.memWrite addr data) s).mem b =
      Buffer.writeBytes (Memory.buf s.mem b) off data := by
    rw [after_memWrite, answer_mem, memWrite_of_some h, Memory.buf_setBuf_self]
  have hmap : memTranslate (after (.memWrite addr data) s).cartSize addr' data.length =
      some (b, off) := by rw [after_cartSize, h']
  rw [exec_memRead_of_some hmap, hbuf,
    Buffer.readBytes_writeBytes ((Memory.wf_iff s.mem).1 hwf b) data (Nat.zero_le off)]

/-- Settles O34: the write is read back at its own address, and a read of another span differs only in
bytes the write stores. -/
theorem writeReadRoundTrip : Obligations.WriteReadRoundTrip := by
  intro s addr data b off hwf hmap
  refine ⟨_, exec_eq_next _ s, after_memWrite_out_of_some hmap,
    exec_memRead_after_memWrite hwf hmap hmap, fun addr' n' b' off' hmap' => ?_⟩
  have hmapAfter : memTranslate (after (.memWrite addr data) s).cartSize addr' n' =
      some (b', off') := by rw [after_cartSize, hmap']
  refine ⟨_, _, exec_memRead_of_some hmap', exec_memRead_of_some hmapAfter, fun j hout => ?_⟩
  have hbyte := after_memWrite_byte_of_outside hwf hmap hout
  rw [Buffer.readBytes_getElem?, Buffer.readBytes_getElem?]
  exact if_congr Iff.rfl (congrArg some hbyte) rfl

/-! ### Addresses by entry and offset -/

/-- The table ends below 2^32, so no address of an entry, nor the one past its end, wraps. -/
theorem lo_add_declared_lt : ∀ r ∈ regionTable, r.lo + r.declared < 2 ^ 32 := by decide

theorem toNat_lo_add {c d : Nat} {r : Region} (hr : r ∈ regionTable) (hd : d ≤ r.effLen c) :
    (BitVec.ofNat 32 (r.lo + d)).toNat = r.lo + d := by
  have hend := lo_add_declared_lt r hr
  have hle := Region.effLen_le_declared c r
  exact Nat.mod_eq_of_lt (by omega)

/-- The translation at an offset inside an entry. -/
theorem memTranslate_lo_add {c d : Nat} (n : Nat) {r : Region} (hr : r ∈ regionTable)
    (hd : d < r.effLen c) :
    memTranslate c (BitVec.ofNat 32 (r.lo + d)) n =
      if d + n ≤ r.effLen c then some (r.buf, d) else none := by
  have haddr := toNat_lo_add hr hd.le
  have hoff : r.lo + d - r.lo = d := Nat.add_sub_cancel_left ..
  rw [memTranslate_of_inRange n hr (by omega) (by omega), haddr, hoff]

/-! ### The cartridge windows (rule R108) -/

/-- The three windows are entries of the table with the one cartridge buffer. -/
theorem cartWindow_mem : ∀ lo ∈ [0x08000000, 0x0A000000, 0x0C000000],
    (⟨lo, 0x02000000, .cart⟩ : Region) ∈ regionTable := by decide

/-- A span inside the backed part lies at its offset of the cartridge buffer, through any window. -/
theorem memTranslate_cartWindow {c d n lo : Nat} (hc : c ≤ 0x02000000) (hd : d < c)
    (hn : d + n ≤ c) (hlo : lo ∈ [0x08000000, 0x0A000000, 0x0C000000]) :
    memTranslate c (BitVec.ofNat 32 (lo + d)) n = some (.cart, d) := by
  have hmem := cartWindow_mem lo hlo
  have heff : Region.effLen c ⟨lo, 0x02000000, .cart⟩ = c := effLen_eq_bufSize hc hmem
  have hmap := memTranslate_lo_add n hmem (heff.symm ▸ hd)
  rwa [heff, if_pos hn] at hmap

/-- Settles O29: all three windows translate an offset to the same place. -/
theorem cartridgeWindowsReadAlike : Obligations.CartridgeWindowsReadAlike := by
  intro s d hc hd
  refine ⟨fun n hn => ⟨_, fun lo hlo =>
    exec_memRead_of_some (memTranslate_cartWindow hc hd hn hlo)⟩, ?_⟩
  intro data hwf hn lo hlo lo' hlo'
  have hmap := memTranslate_cartWindow hc hd hn hlo
  exact ⟨_, exec_eq_next _ s, after_memWrite_out_of_some hmap,
    exec_memRead_after_memWrite hwf hmap (memTranslate_cartWindow hc hd hn hlo')⟩

/-! ### The edges of the entries (rule R110) -/

/-- Every entry has a byte as soon as the cartridge has one. -/
theorem effLen_pos {c : Nat} (hpos : 1 ≤ c) (hc : c ≤ 0x02000000) {r : Region}
    (hr : r ∈ regionTable) : 0 < r.effLen c := by
  rw [effLen_eq_bufSize hc hr]
  cases r.buf with
  | cart => exact hpos
  | _ => simp [bufSize]

/-- Only behind a cartridge window does the next entry begin at once. -/
theorem cart_of_adjacent : ∀ r ∈ regionTable, ∀ r' ∈ regionTable, r.lo + r.declared = r'.lo →
    r.buf = .cart ∧ (r'.lo = 0x0A000000 ∨ r'.lo = 0x0C000000 ∨ r'.lo = 0x0E000000) := by decide

/-- There is a gap between an entry's effective range and a later entry, but behind a fully backed
cartridge window. -/
theorem lo_add_effLen_lt_lo {c : Nat} (hc : c ≤ 0x02000000) {r r' : Region} (hr : r ∈ regionTable)
    (hr' : r' ∈ regionTable) (hbefore : r.lo + r.declared ≤ r'.lo)
    (hgap : c < 0x02000000 ∨ r.buf ≠ .cart ∨
      (r'.lo ≠ 0x0A000000 ∧ r'.lo ≠ 0x0C000000 ∧ r'.lo ≠ 0x0E000000)) :
    r.lo + r.effLen c < r'.lo := by
  have hle := Region.effLen_le_declared c r
  rcases hbefore.lt_or_eq with hlt | hadj
  · omega
  · obtain ⟨hcart, hnext⟩ := cart_of_adjacent r hr r' hr' hadj
    have hdecl : r.declared = 0x02000000 := by rw [declared_of_mem_regionTable c hr, if_pos hcart]
    have heff : r.effLen c = c := by rw [effLen_eq_bufSize hc hr, hcart]; rfl
    rcases hgap with hshort | hnotCart | hnotNext
    · omega
    · exact absurd hcart hnotCart
    · omega

/-- No entry covers the address past an entry's end, but behind a fully backed window. -/
theorem uncovered_past_end {c : Nat} (hc : c ≤ 0x02000000) {r r' : Region} (hr : r ∈ regionTable)
    (hr' : r' ∈ regionTable) (hgap : c < 0x02000000 ∨ r.buf ≠ .cart) :
    r'.covers c (r.lo + r.effLen c) = false := by
  rw [Bool.eq_false_iff, Ne, Region.covers_iff]
  rintro ⟨hlo, hlt⟩
  rcases regionTable_apart hr hr' with rfl | hbefore | hafter
  · omega
  · have hnext := lo_add_effLen_lt_lo hc hr hr' hbefore (hgap.imp_right .inl)
    omega
  · have hle := Region.effLen_le_declared c r'
    omega

/-- No entry covers the address below an entry, but the end of a fully backed window. -/
theorem uncovered_below {c : Nat} (hc : c ≤ 0x02000000) {r r' : Region} (hr : r ∈ regionTable)
    (hr' : r' ∈ regionTable) (hlo : r.lo ≠ 0)
    (hgap : c < 0x02000000 ∨ (r.lo ≠ 0x0A000000 ∧ r.lo ≠ 0x0C000000 ∧ r.lo ≠ 0x0E000000)) :
    r'.covers c (r.lo - 1) = false := by
  rw [Bool.eq_false_iff, Ne, Region.covers_iff]
  rintro ⟨hlo', hlt'⟩
  rcases regionTable_apart hr hr' with rfl | hbefore | hafter
  · omega
  · omega
  · have hnext := lo_add_effLen_lt_lo hc hr' hr hafter (hgap.imp_right .inr)
    omega

/-- Settles O37: inside an entry the offset and the size decide, at its two ends the gaps of the table;
the neighbours of fully backed windows by evaluation. -/
theorem regionContainment : Obligations.RegionContainment := by
  intro c hpos hc
  refine ⟨fun r hr => ?_, ?_⟩
  · have heff := effLen_pos hpos hc hr
    have hstart := fun n => memTranslate_lo_add n hr heff
    have hlast := fun n => memTranslate_lo_add n hr (Nat.sub_lt heff Nat.one_pos)
    have hlastAddr : r.lo + r.effLen c - 1 = r.lo + (r.effLen c - 1) := by omega
    rw [hlastAddr]
    refine ⟨(hstart _).trans (if_pos (by omega)), fun hgap n => ?_,
      (hstart _).trans (if_neg (by omega)), (hlast _).trans (if_pos (by omega)),
      (hlast _).trans (if_neg (by omega)), fun hlo hgap => ?_⟩
    · refine memTranslate_of_uncovered n fun r' hr' => ?_
      rw [toNat_lo_add hr le_rfl]
      exact uncovered_past_end hc hr hr' hgap
    · have hend := lo_add_declared_lt r hr
      have haddr : (BitVec.ofNat 32 (r.lo - 1)).toNat = r.lo - 1 := Nat.mod_eq_of_lt (by omega)
      refine memTranslate_of_uncovered 1 fun r' hr' => ?_
      rw [haddr]
      exact uncovered_below hc hr hr' hlo hgap
  · rintro rfl
    decide

end Sys2Proof.Machine

/-! What stands where a manual has exceptions (60_exceptions.md): no operation stops a run, the outcome
of an operation shows in its answer, and a consumer enters a mode and returns by ordinary register
writes. -/

namespace Sys2Proof.Machine

/-! ### No operation stops a run (rule R111) -/

/-- What every operation keeps, a list of operations keeps. -/
theorem afterAll_induction {P : State → Prop} (hstep : ∀ i t, P t → P (after i t))
    (ops : List Instr) {s : State} (h : P s) : P (afterAll ops s) :=
  List.foldlRecOn ops _ h fun t ht i _ => hstep i t ht

@[simp] theorem afterAll_inbox (ops : List Instr) (s : State) :
    (afterAll ops s).inbox = s.inbox :=
  afterAll_induction (P := fun t => t.inbox = s.inbox) (fun i t ht => (after_inbox i t).trans ht)
    ops rfl

theorem afterAll_inv (ops : List Instr) {s : State} (h : s.Inv) : (afterAll ops s).Inv :=
  afterAll_induction (fun i _ => after_inv i) ops h

/-- Settles O42: a run ends in the state its operations' effects compose to, and each of them keeps the
records still to come and the invariant. -/
theorem noOperationStopsTheMachine : Obligations.NoOperationStopsTheMachine :=
  fun ops s => ⟨_, runOps_eq_next ops s, afterAll_inbox ops s, afterAll_inv ops⟩

/-! ### The causes of the outcomes (rules R112 and R117) -/

/-- The cause of an absent read and of an ignored write is that the access resolves to no slot. -/
theorem regCause_eq_isNone (idx : Nat) (mo : ModeOperand) :
    regCause idx mo = (writtenSlot idx mo).isNone := by
  unfold regCause writtenSlot
  cases modeOperandMode? mo with
  | none => simp
  | some m =>
    by_cases h : idx < 18
    · simp [Nat.le_of_lt_succ h, resolve_of_lt h m]
    · have hgt : 17 < idx := Nat.not_lt.1 h
      simp [hgt, resolve_of_gt hgt m]

theorem outcomeOf_regRead (c idx : Nat) (mo : ModeOperand) :
    outcomeOf c (.regRead idx mo) = if writtenSlot idx mo = none then .regAbsent else .ok := by
  simp [outcomeOf, regCause_eq_isNone]

theorem outcomeOf_regWrite (c idx : Nat) (mo : ModeOperand) (v : Word) :
    outcomeOf c (.regWrite idx mo v) = if writtenSlot idx mo = none then .regIgnored else .ok := by
  simp [outcomeOf, regCause_eq_isNone]

/-- The three memory outcomes have one cause: the span has no translation. -/
theorem ite_valid {α : Type} (c : Nat) (addr : Addr) (n : Nat) (x y : α) :
    (if valid c addr n then x else y) = if memTranslate c addr n = none then y else x := by
  cases h : memTranslate c addr n <;> simp [valid_eq_isSome, h]

theorem outcomeOf_memTranslate (c : Nat) (addr : Addr) (n : Nat) :
    outcomeOf c (.memTranslate addr n) =
      if memTranslate c addr n = none then .memNoMapping else .ok :=
  ite_valid ..

theorem outcomeOf_memRead (c : Nat) (addr : Addr) (n : Nat) :
    outcomeOf c (.memRead addr n) = if memTranslate c addr n = none then .memNoData else .ok :=
  ite_valid ..

theorem outcomeOf_memWrite (c : Nat) (addr : Addr) (data : List Byte) :
    outcomeOf c (.memWrite addr data) =
      if memTranslate c addr data.length = none then .memWriteFailed else .ok :=
  ite_valid ..

/-- `REG_IGNORED` is the outcome of a write that resolves to no slot, and of nothing else. -/
theorem outcomeOf_eq_regIgnored_iff (c : Nat) (i : Instr) :
    outcomeOf c i = .regIgnored ↔
      ∃ idx mo v, i = .regWrite idx mo v ∧ writtenSlot idx mo = none := by
  cases i with
  | regWrite idx mo v => simp [outcomeOf_regWrite]
  | regRead idx mo => rw [outcomeOf_regRead]; split <;> simp
  | memTranslate addr n => rw [outcomeOf_memTranslate]; split <;> simp
  | memRead addr n => rw [outcomeOf_memRead]; split <;> simp
  | memWrite addr data => rw [outcomeOf_memWrite]; split <;> simp
  | _ => simp [outcomeOf]

/-! ### What an answer shows of an outcome (rules R112 and R113) -/

/-- The answers that show an outcome, by the table of rule R112; `REG_IGNORED` has none, since a
register write reports no status. -/
def OutcomeCode.ShownBy (code : OutcomeCode) (r : Result) : Prop :=
  (code = .regAbsent ↔ r = .word none) ∧ (code = .memNoMapping ↔ r = .mapping none) ∧
    (code = .memNoData ↔ r = .bytes none) ∧ (code = .memWriteFailed ↔ r = .stored false)

/-- Every operation answers, and its answer shows its outcome: absent where its access has no slot or
its span no translation, present where it has one. -/
theorem exists_answer_showing_outcome (i : Instr) (s : State) :
    ∃ r, (after i s).out = some r ∧ (outcomeOf s.cartSize i).ShownBy r := by
  cases i with
  | regRead idx mo =>
    refine ⟨_, rfl, ?_⟩
    rw [outcomeOf_regRead, regReadOp_eq_writtenSlot]
    cases writtenSlot idx mo <;> simp [OutcomeCode.ShownBy]
  | regWrite idx mo v =>
    refine ⟨_, rfl, ?_⟩
    rw [outcomeOf_regWrite]
    cases writtenSlot idx mo <;> simp [OutcomeCode.ShownBy]
  | memTranslate addr n =>
    refine ⟨_, rfl, ?_⟩
    rw [outcomeOf_memTranslate]
    cases memTranslate s.cartSize addr n <;> simp [OutcomeCode.ShownBy]
  | memRead addr n =>
    refine ⟨_, rfl, ?_⟩
    rw [outcomeOf_memRead]
    cases h : memTranslate s.cartSize addr n with
    | none => simp [OutcomeCode.ShownBy, memRead_of_none h]
    | some p => simp [OutcomeCode.ShownBy, memRead_of_some h]
  | memWrite addr data =>
    refine ⟨_, rfl, ?_⟩
    rw [outcomeOf_memWrite]
    cases h : memTranslate s.cartSize addr data.length with
    | none => simp [OutcomeCode.ShownBy, memWriteOk_of_none h]
    | some p => simp [OutcomeCode.ShownBy, memWriteOk_of_some h]
  | _ => exact ⟨_, rfl, by simp [OutcomeCode.ShownBy, outcomeOf]⟩

theorem after_eq_of_exec {i : Instr} {s t : State} (h : exec i s = .next t) : after i s = t :=
  Host.Outcome.next.inj ((exec_eq_next i s).symm.trans h)

/-- An operation with an outcome other than `OK` changes nothing but the answer: of the two writes it
can only be one that has nowhere to store. -/
theorem after_of_outcomeOf_ne_ok {i : Instr} {s : State} {r : Result}
    (hout : (after i s).out = some r) (h : outcomeOf s.cartSize i ≠ .ok) :
    after i s = { s with out := some r } := by
  rw [← hout]
  cases i with
  | regWrite idx mo v =>
    rw [outcomeOf_regWrite] at h
    have hnone : writtenSlot idx mo = none := by_contra fun hsome => h (if_neg hsome)
    rw [after_eq_of_exec (exec_regWrite_of_none hnone v s)]
  | memWrite addr data =>
    rw [outcomeOf_memWrite] at h
    have hnone : memTranslate s.cartSize addr data.length = none :=
      by_contra fun hsome => h (if_neg hsome)
    rw [after_eq_of_exec (exec_memWrite_of_none hnone)]
  | _ => rfl

/-- Settles O45: the answer, the effect and the ignored write each by the operation's cause; the codes by
evaluation. -/
theorem outcomesMatchAnswers : Obligations.OutcomesMatchAnswers := by
  refine ⟨rfl, fun i s => ?_⟩
  obtain ⟨r, hout, habsent, hmapping, hdata, hstored⟩ := exists_answer_showing_outcome i s
  exact ⟨_, r, exec_eq_next i s, hout, after_of_outcomeOf_ne_ok hout, habsent, hmapping, hdata,
    hstored, outcomeOf_eq_regIgnored_iff s.cartSize i⟩

/-! ### The status word (rules R33 and R121) -/

theorem after_regWrite_reg_typed (i : Fin 18) (m : Mode) (v : Word) (s : State) (r : Fin 38) :
    (after (.regWrite i (.typed m) v) s).reg r = if r = slot i m then v else s.reg r := by
  rw [after_regWrite_reg, writtenSlot_typed]
  simp only [Option.some.injEq, eq_comm]

/-- Under any mode a write of CPSR stores in slot 31 alone. -/
theorem after_cpsrWrite_reg (m : Mode) (v : Word) (s : State) (r : Fin 38) :
    (after (cpsrWrite m v) s).reg r = if r = 31 then v else s.reg r :=
  after_regWrite_reg_typed 16 m v s r

theorem after_cpsrWrite_reg_of_ne {r : Fin 38} (h : r ≠ 31) (m : Mode) (v : Word) (s : State) :
    (after (cpsrWrite m v) s).reg r = s.reg r := by
  rw [after_cpsrWrite_reg, if_neg h]

/-- Under any mode a read of CPSR answers slot 31. -/
theorem exec_cpsrRead (m : Mode) (s : State) :
    exec (cpsrRead m) s = .next { s with out := some (.word (some (s.reg 31))) } :=
  exec_regRead_typed 16 m s

theorem currentModeUnder_eq (m : Mode) (s : State) : currentModeUnder m s = some (currentMode s) :=
  rfl

/-- Settles O16: index 16 has slot 31 under every mode, and the current mode is decoded from that slot. -/
theorem writingCpsrEntersAMode : Obligations.WritingCpsrEntersAMode := by
  intro s m v
  have hcpsr : (after (cpsrWrite m v) s).reg 31 = v := after_cpsrWrite_reg m v s 31
  refine ⟨_, exec_eq_next _ s, hcpsr, fun r hr => after_cpsrWrite_reg_of_ne hr m v s, rfl, ?_,
    fun m' => ⟨?_, currentModeUnder_eq m' _⟩⟩
  · rw [currentMode, hcpsr]
    rfl
  · rw [exec_cpsrRead, hcpsr]

/-! ### Entering a mode and returning (rules R118 and R119) -/

theorem after_spsrWrite_reg (m : Mode) (v : Word) (s : State) (r : Fin 38) :
    (after (spsrWrite m v) s).reg r = if r = slot 17 m then v else s.reg r :=
  after_regWrite_reg_typed 17 m v s r

theorem after_linkWrite_reg (m : Mode) (v : Word) (s : State) (r : Fin 38) :
    (after (.regWrite 14 (.typed m) v) s).reg r = if r = slot 14 m then v else s.reg r :=
  after_regWrite_reg_typed 14 m v s r

theorem after_pcWrite_reg (m : Mode) (v : Word) (s : State) (r : Fin 38) :
    (after (.regWrite 15 (.typed m) v) s).reg r = if r = 30 then v else s.reg r :=
  after_regWrite_reg_typed 15 m v s r

/-- Under any mode a read of its saved status word answers the slot of its bank. -/
theorem exec_spsrRead (m : Mode) (s : State) :
    exec (spsrRead m) s = .next { s with out := some (.word (some (s.reg (slot 17 m)))) } :=
  exec_regRead_typed 17 m s

/-- What the four writes of an entry leave in each slot, the last write first. -/
theorem afterAll_entryOps_reg (m : Mode) (old link new vector : Word) (s : State) (r : Fin 38) :
    (afterAll (entryOps m old link new vector) s).reg r =
      if r = 30 then vector else if r = 31 then new else if r = slot 14 m then link
      else if r = slot 17 m then old else s.reg r := by
  rw [entryOps, afterAll_cons, afterAll_cons, afterAll_cons, afterAll_cons, afterAll_nil,
    after_pcWrite_reg, after_cpsrWrite_reg, after_linkWrite_reg, after_spsrWrite_reg]

theorem slot_ne_pc {i : Fin 18} (h : i ≠ 15) (m : Mode) : slot i m ≠ 30 :=
  mt (index_eq_of_slot_eq (i' := 15) (m' := m)) h

theorem slot_ne_cpsr {i : Fin 18} (h : i ≠ 16) (m : Mode) : slot i m ≠ 31 :=
  mt (index_eq_of_slot_eq (i' := 16) (m' := m)) h

theorem spsrSlot_ne_linkSlot (m : Mode) : slot 17 m ≠ slot 14 m :=
  mt index_eq_of_slot_eq (by decide)

/-- After an entry the mode's link register holds the link value, which no later write overwrites. -/
theorem afterAll_entryOps_link (m : Mode) (old link new vector : Word) (s : State) :
    (afterAll (entryOps m old link new vector) s).reg (slot 14 m) = link := by
  rw [afterAll_entryOps_reg, if_neg (slot_ne_pc (by decide) m), if_neg (slot_ne_cpsr (by decide) m),
    if_pos rfl]

/-- After an entry the mode's SPSR holds the old status word, which no later write overwrites. -/
theorem afterAll_entryOps_spsr (m : Mode) (old link new vector : Word) (s : State) :
    (afterAll (entryOps m old link new vector) s).reg (slot 17 m) = old := by
  rw [afterAll_entryOps_reg, if_neg (slot_ne_pc (by decide) m), if_neg (slot_ne_cpsr (by decide) m),
    if_neg (spsrSlot_ne_linkSlot m), if_pos rfl]

/-- Settles O17: the four writes have four different indices and so four different slots; the write
back stores in slot 31 alone. -/
theorem trapEntryAndReturnByExplicitWrites : Obligations.TrapEntryAndReturnByExplicitWrites := by
  intro s m link new vector
  have hreg := afterAll_entryOps_reg m (s.reg 31) link new vector s
  have hspsr := afterAll_entryOps_spsr m (s.reg 31) link new vector s
  refine ⟨_, runOps_eq_next _ s, hspsr, afterAll_entryOps_link .., hreg 31, hreg 30,
    fun r h17 h14 h31 h30 => ?_, rfl, rfl, rfl, ?_,
    fun m' => ⟨_, exec_eq_next _ _, after_cpsrWrite_reg m' _ _ 31,
      fun r hr => after_cpsrWrite_reg_of_ne hr m' _ _, rfl, rfl, rfl⟩⟩
  · rw [hreg, if_neg h30, if_neg h31, if_neg h14, if_neg h17]
  · rw [exec_spsrRead, hspsr]

end Sys2Proof.Machine

/-! The images and saved states that a collaborator brings in by ordinary writes
(70_reset_and_hazards.md). -/

namespace Sys2Proof.Machine

/-! ### Restoring a saved state (rule R132) -/

/-- Where the operations that give a value all give the same one, and one does, it is the latest
value. -/
theorem findSome?_reverse_getD_of_agree {α : Type} {f : Instr → Option α} {ops : List Instr}
    {x : α} (hsome : ∃ i ∈ ops, f i = some x) (hagree : ∀ i ∈ ops, ∀ y, f i = some y → y = x)
    (before : α) : (ops.reverse.findSome? f).getD before = x := by
  cases hf : ops.reverse.findSome? f with
  | none =>
    obtain ⟨i, hi, hx⟩ := hsome
    have hnone := List.findSome?_eq_none_iff.1 hf i (List.mem_reverse.2 hi)
    cases hx.symm.trans hnone
  | some y =>
    obtain ⟨i, hi, hy⟩ := List.exists_of_findSome?_eq_some hf
    exact hagree i (List.mem_reverse.1 hi) y hy

/-- A restoring is one write for each slot and one for each buffer. -/
theorem mem_restoreOps {saved : State} {i : Instr} :
    i ∈ restoreOps saved ↔
      (∃ r, .regWrite (slotAddress r).1 (.typed (slotAddress r).2) (saved.reg r) = i) ∨
      (∃ b, .memWrite (bufAddress b)
        (Buffer.readBytes (Memory.buf saved.mem b) 0 (bufSize saved.cartSize b)) = i) := by
  simp [restoreOps, restoreRegOps, restoreMemOps, State.reg]

/-- The write of a slot through `slotAddress` stores in that slot alone. -/
theorem storedWord_slotAddress (r r' : Fin 38) (v : Word) :
    storedWord r (.regWrite (slotAddress r').1 (.typed (slotAddress r').2) v) =
      if r' = r then some v else none := by
  simp [storedWord, writtenSlot, resolve_slotAddress]

/-- The write of a buffer's contents at `bufAddress` stores each of its bytes at its own offset, and
nothing in another buffer or past the buffer's end. -/
theorem storedByte_bufAddress {c : Nat} (hpos : 1 ≤ c) (hmax : c ≤ 0x02000000) (b b' : BufId)
    (o : Nat) (contents : Buffer) :
    storedByte c b o (.memWrite (bufAddress b') (Buffer.readBytes contents 0 (bufSize c b'))) =
      if b' = b ∧ o < bufSize c b' then some (Buffer.read contents o) else none := by
  have hmap := memTranslate_bufAddress hpos hmax b'
  simp [storedByte, writtenByte, hmap, Buffer.readBytes_getElem?, ite_and]

/-- After a restoring each slot holds the saved word: one write stores it and no other goes
there. -/
theorem afterAll_restoreOps_reg (saved s : State) (r : Fin 38) :
    (afterAll (restoreOps saved) s).reg r = saved.reg r := by
  rw [afterAll_reg]
  apply findSome?_reverse_getD_of_agree
  · exact ⟨_, mem_restoreOps.2 (.inl ⟨r, rfl⟩), by rw [storedWord_slotAddress, if_pos rfl]⟩
  · intro i hi w hw
    obtain ⟨r', rfl⟩ | ⟨b, rfl⟩ := mem_restoreOps.1 hi
    · rw [storedWord_slotAddress, Option.ite_none_right_eq_some] at hw
      obtain ⟨rfl, hval⟩ := hw
      exact (Option.some.inj hval).symm
    · cases hw

/-- After a restoring each offset inside a buffer holds the saved byte, in the same way. -/
theorem afterAll_restoreOps_byte {saved s : State} (hs : s.Inv)
    (hcart : s.cartSize = saved.cartSize) {b : BufId} {o : Nat} (ho : o < bufSize s.cartSize b) :
    (afterAll (restoreOps saved) s).byte b o = saved.byte b o := by
  obtain ⟨hpos, hmax, hwf, -⟩ := (State.inv_iff s).1 hs
  have hstored := storedByte_bufAddress hpos hmax
  rw [afterAll_byte _ hwf]
  apply findSome?_reverse_getD_of_agree
  · refine ⟨_, mem_restoreOps.2 (.inr ⟨b, rfl⟩), ?_⟩
    rw [← hcart, hstored, if_pos ⟨rfl, ho⟩]
    rfl
  · intro i hi v hv
    obtain ⟨r, rfl⟩ | ⟨b', rfl⟩ := mem_restoreOps.1 hi
    · cases hv
    · rw [← hcart, hstored, Option.ite_none_right_eq_some] at hv
      obtain ⟨⟨rfl, -⟩, hval⟩ := hv
      exact (Option.some.inj hval).symm

/-- Past the end of its buffer an offset holds no cell in any state of the invariant. -/
theorem byte_of_bufSize_le {s : State} (hs : s.Inv) {b : BufId} {o : Nat}
    (ho : bufSize s.cartSize b ≤ o) : s.byte b o = unlistedByte := by
  obtain ⟨-, -, -, hbounds⟩ := (State.inv_iff s).1 hs
  exact Buffer.read_of_below ((Memory.inBounds_iff ..).1 hbounds b) ho

/-- A restoring leaves the saved memory: inside the buffers it writes every byte, and both memories
are canonical and hold nothing outside them. -/
theorem afterAll_restoreOps_mem {saved s : State} (hs : s.Inv) (hsaved : saved.Inv)
    (hcart : s.cartSize = saved.cartSize) :
    (afterAll (restoreOps saved) s).mem = saved.mem := by
  have hafter := afterAll_inv (restoreOps saved) hs
  obtain ⟨-, -, hwf, -⟩ := (State.inv_iff _).1 hafter
  obtain ⟨-, -, hwfSaved, -⟩ := (State.inv_iff _).1 hsaved
  refine Memory.ext_of_wf hwf hwfSaved fun b o => ?_
  rcases Nat.lt_or_ge o (bufSize s.cartSize b) with ho | ho
  · exact afterAll_restoreOps_byte hs hcart ho
  · have hnone : (afterAll (restoreOps saved) s).byte b o = unlistedByte :=
      byte_of_bufSize_le hafter (by rwa [afterAll_cartSize])
    have hnoneSaved : saved.byte b o = unlistedByte :=
      byte_of_bufSize_le hsaved (by rwa [← hcart])
    exact hnone.trans hnoneSaved.symm

/-- Settles O48: the run's writes store the saved word in every slot and the saved byte at every
offset of every buffer. -/
theorem savedStateIsRestoredByWrites : Obligations.SavedStateIsRestoredByWrites :=
  fun s saved hs hsaved hcart =>
    ⟨_, runOps_eq_next _ s, RegFile.ext_slots (afterAll_restoreOps_reg saved s),
      afterAll_restoreOps_mem hs hsaved hcart, (afterAll_cartSize _ s).trans hcart⟩

/-! ### The BIOS image (rules R31 and R132) -/

/-- A span from address zero on that fits the BIOS buffer lies at its start. -/
theorem memTranslate_biosImage (c : Nat) {n : Nat} (h : n ≤ 0x4000) :
    memTranslate c 0x00000000 n = some (.bios, 0) := by
  have hmem : (⟨0x00000000, 0x4000, .bios⟩ : Region) ∈ regionTable := by decide
  have heff : Region.effLen c ⟨0x00000000, 0x4000, .bios⟩ = 0x4000 := Nat.min_self 0x4000
  have hmap := memTranslate_lo_add (c := c) (d := 0) n hmem (by omega)
  exact hmap.trans (if_pos (by omega))

/-- Without an image the nine buffers are zero. -/
theorem bootMem_of_no_image (c : Config) : bootMem { c with biosInit := [] } = Memory.zero :=
  Memory.setBuf_buf_self Memory.zero .bios

/-- Settles O49: the write fills the same zero buffer from the same offset as the parameter does. -/
theorem biosImageByParameterOrByWrite : Obligations.BiosImageByParameterOrByWrite := by
  intro c hc
  obtain ⟨hlen, -⟩ := (Config.wf_iff c).1 hc
  have hmap := memTranslate_biosImage c.cartSize hlen
  have hmem : memWrite c.cartSize (bootMem { c with biosInit := [] }) 0x00000000 c.biosInit =
      bootMem c := by
    rw [memWrite_of_some hmap, bootMem_of_no_image]
    rfl
  exact ⟨_, runOps_eq_next _ _, after_memWrite_out_of_some hmap, rfl, hmem⟩

end Sys2Proof.Machine
